-- ==== Sys2Proof/Word.lean ====
section
/-! DEFINITION. The word types of the CHIP-8 core: what the spec treats as bits.

Every value of this machine is unsigned (spec/00_scope.md section 5), so a plain bit vector is the whole story. -/

namespace Sys2Proof

/-- An 8-bit value: a general register, a timer, a byte of memory (10_state.md R10, R19, R21). -/
abbrev Byte := BitVec 8

/-- A 16-bit value: `I`, `PC`, a stack entry, an instruction word (10_state.md R12, R13, R15; 30_encoding.md R50). -/
abbrev Word := BitVec 16

/-- A 12-bit address field `NNN` (30_encoding.md R51). -/
abbrev Addr := BitVec 12

/-- A 4-bit field: `nibble1`, `N`, a key code (30_encoding.md R51; 60_exceptions.md R146). -/
abbrev Nibble := BitVec 4

/-- A register number 0..15, the field `X` or `Y` (10_state.md R10: every number names a register). -/
abbrev Reg := BitVec 4

end Sys2Proof
end

