-- ==== Sys2Proof/Config.lean ====
section
/-! DEFINITION. What the spec fixes for the machine once (00_scope.md section 4), and its one free value. -/

namespace Sys2Proof.Config

/-- `MEM_SIZE`: 4096 bytes, addresses 0x000 to 0xFFF (20_memory.md R30). -/
def memSize : Nat := 0x1000

/-- `PROG_BASE`: the reset PC and the address a ROM is loaded at (10_state.md R13, 20_memory.md R31). -/
def progBase : Nat := 0x200

/-- `ROM_MAX`: the bytes from 0x200 to the end of memory (70_reset_and_hazards.md R164). -/
def romMax : Nat := 0xE00

/-- The size of the font image, 16 glyphs of 5 bytes, placed at address 0 (10_state.md R21). -/
def fontSize : Nat := 80

/-- `FB_W`: columns of the framebuffer (43_graphics.md R110). -/
def fbWidth : Nat := 64

/-- `FB_H`: rows of the framebuffer (43_graphics.md R110). -/
def fbHeight : Nat := 32

/-- FREE VALUE (log 4). The byte the random source delivers as its `drawn`-th draw after its `seeding`-th seeding.
The spec fixes neither generator nor seed (41_alu.md R92, 10_state.md R23): a draw is "any value 0-255, under no law",
so this constant has no body and no proof can know a value of it. -/
opaque randomByte (seeding drawn : Nat) : Byte

end Sys2Proof.Config
end

