-- ==== Sys2Proof/Syntax.lean ====
section
/-! DEFINITION. The instruction set: one constructor per row of the opcode table (30_encoding.md R62), in its order.

The fields have exactly the widths of 30_encoding.md R51, so every term is an instruction the hardware has.
`shr` and `shl` carry the `Y` field although their semantics ignore it (41_alu.md R89, R91): the field is part of the
word, and a fault record must be able to name the word (log 19). -/

namespace Sys2Proof

inductive Instr where
  /-- 00E0: clear the framebuffer (R112). -/
  | cls
  /-- 00EE: return from subroutine (R71). -/
  | ret
  /-- 1NNN: jump (R72). -/
  | jp (nnn : Addr)
  /-- 2NNN: call subroutine (R73). -/
  | call (nnn : Addr)
  /-- 3XNN: skip if register equals immediate (R74). -/
  | sei (x : Reg) (nn : Byte)
  /-- 4XNN: skip if register differs from immediate (R75). -/
  | snei (x : Reg) (nn : Byte)
  /-- 5XY0: skip if registers are equal (R76). -/
  | ser (x y : Reg)
  /-- 6XNN: load immediate (R81). -/
  | ldi (x : Reg) (nn : Byte)
  /-- 7XNN: add immediate, no flag (R82). -/
  | addi (x : Reg) (nn : Byte)
  /-- 8XY0: copy register (R83). -/
  | mov (x y : Reg)
  /-- 8XY1: bitwise OR (R84). -/
  | or (x y : Reg)
  /-- 8XY2: bitwise AND (R85). -/
  | and (x y : Reg)
  /-- 8XY3: bitwise exclusive OR (R86). -/
  | xor (x y : Reg)
  /-- 8XY4: add with carry flag (R87). -/
  | add (x y : Reg)
  /-- 8XY5: subtract, flag = no borrow (R88). -/
  | sub (x y : Reg)
  /-- 8XY6: shift right by one; `y` is decoded and ignored (R89). -/
  | shr (x y : Reg)
  /-- 8XY7: reverse subtract, flag = no borrow (R90). -/
  | subn (x y : Reg)
  /-- 8XYE: shift left by one; `y` is decoded and ignored (R91). -/
  | shl (x y : Reg)
  /-- 9XY0: skip if registers differ (R77). -/
  | sner (x y : Reg)
  /-- ANNN: load the address register (R100). -/
  | lda (nnn : Addr)
  /-- BNNN: jump with offset V0 (R78). -/
  | jpv0 (nnn : Addr)
  /-- CXNN: masked random byte (R92). -/
  | rnd (x : Reg) (nn : Byte)
  /-- DXYN: draw a sprite by XOR, report collision (R113). -/
  | drw (x y : Reg) (n : Nibble)
  /-- EX9E: skip if key pressed (R120). -/
  | skp (x : Reg)
  /-- EXA1: skip if key not pressed (R121). -/
  | sknp (x : Reg)
  /-- FX07: read the delay timer (R123). -/
  | getdt (x : Reg)
  /-- FX0A: wait for a key (R122). -/
  | waitk (x : Reg)
  /-- FX15: set the delay timer (R124). -/
  | setdt (x : Reg)
  /-- FX18: set the sound timer (R125). -/
  | setst (x : Reg)
  /-- FX1E: add a register to the address register (R101). -/
  | adda (x : Reg)
  /-- FX29: point I at a font glyph (R102). -/
  | font (x : Reg)
  /-- FX33: store the three decimal digits of a register (R103). -/
  | bcd (x : Reg)
  /-- FX55: store registers V0..Vx to memory (R104). -/
  | stm (x : Reg)
  /-- FX65: load registers V0..Vx from memory (R105). -/
  | ldm (x : Reg)
  deriving DecidableEq, Repr

end Sys2Proof
end

