-- ==== Sys2Proof/WellFormed.lean ====
section
/-! DEFINITION. What can be ill-formed around this instruction set, as Boolean checks.

An `Instr` itself cannot be: its fields have exactly the widths of 30_encoding.md R51. What can be ill-formed is a
16-bit word (it may match no row of the opcode table, R57), a ROM image (it may be too long, 70_reset_and_hazards.md
R164) and a value of the parameter `STACK_CAP` (it may be 0, 92_eei_decisions.md D7). -/

namespace Sys2Proof

/-- One row of the opcode table of 30_encoding.md R62: a word `w` is this instruction iff `w AND mask = bits`. -/
structure Row where
  mnemonic : String
  mask : Word
  bits : Word
  deriving DecidableEq, Repr

/-- The selection rule of 30_encoding.md R62. -/
def Row.selects (r : Row) (w : Word) : Bool := w &&& r.mask == r.bits

/-- Buckets 0x0 to 0x7 of the table of R62. -/
def opcodeRows0to7 : List Row := [
  ⟨"CLS", 0xFFFF#16, 0x00E0#16⟩,
  ⟨"RET", 0xFFFF#16, 0x00EE#16⟩,
  ⟨"JP", 0xF000#16, 0x1000#16⟩,
  ⟨"CALL", 0xF000#16, 0x2000#16⟩,
  ⟨"SEI", 0xF000#16, 0x3000#16⟩,
  ⟨"SNEI", 0xF000#16, 0x4000#16⟩,
  ⟨"SER", 0xF00F#16, 0x5000#16⟩,
  ⟨"LDI", 0xF000#16, 0x6000#16⟩,
  ⟨"ADDI", 0xF000#16, 0x7000#16⟩]

/-- Bucket 0x8 of the table of R62. -/
def opcodeRows8 : List Row := [
  ⟨"MOV", 0xF00F#16, 0x8000#16⟩,
  ⟨"OR", 0xF00F#16, 0x8001#16⟩,
  ⟨"AND", 0xF00F#16, 0x8002#16⟩,
  ⟨"XOR", 0xF00F#16, 0x8003#16⟩,
  ⟨"ADD", 0xF00F#16, 0x8004#16⟩,
  ⟨"SUB", 0xF00F#16, 0x8005#16⟩,
  ⟨"SHR", 0xF00F#16, 0x8006#16⟩,
  ⟨"SUBN", 0xF00F#16, 0x8007#16⟩,
  ⟨"SHL", 0xF00F#16, 0x800E#16⟩]

/-- Buckets 0x9 to 0xE of the table of R62. -/
def opcodeRows9toE : List Row := [
  ⟨"SNER", 0xF00F#16, 0x9000#16⟩,
  ⟨"LDA", 0xF000#16, 0xA000#16⟩,
  ⟨"JPV0", 0xF000#16, 0xB000#16⟩,
  ⟨"RND", 0xF000#16, 0xC000#16⟩,
  ⟨"DRW", 0xF000#16, 0xD000#16⟩,
  ⟨"SKP", 0xF0FF#16, 0xE09E#16⟩,
  ⟨"SKNP", 0xF0FF#16, 0xE0A1#16⟩]

/-- Bucket 0xF of the table of R62. -/
def opcodeRowsF : List Row := [
  ⟨"GETDT", 0xF0FF#16, 0xF007#16⟩,
  ⟨"WAITK", 0xF0FF#16, 0xF00A#16⟩,
  ⟨"SETDT", 0xF0FF#16, 0xF015#16⟩,
  ⟨"SETST", 0xF0FF#16, 0xF018#16⟩,
  ⟨"ADDA", 0xF0FF#16, 0xF01E#16⟩,
  ⟨"FONT", 0xF0FF#16, 0xF029#16⟩,
  ⟨"BCD", 0xF0FF#16, 0xF033#16⟩,
  ⟨"STM", 0xF0FF#16, 0xF055#16⟩,
  ⟨"LDM", 0xF0FF#16, 0xF065#16⟩]

/-- The complete instruction set: the 34 rows of 30_encoding.md R62, in its order. -/
def opcodeTable : List Row := opcodeRows0to7 ++ opcodeRows8 ++ opcodeRows9toE ++ opcodeRowsF

/-- The row of the table an instruction stands in. -/
def Instr.row : Instr → Row
  | .cls => ⟨"CLS", 0xFFFF#16, 0x00E0#16⟩
  | .ret => ⟨"RET", 0xFFFF#16, 0x00EE#16⟩
  | .jp _ => ⟨"JP", 0xF000#16, 0x1000#16⟩
  | .call _ => ⟨"CALL", 0xF000#16, 0x2000#16⟩
  | .sei _ _ => ⟨"SEI", 0xF000#16, 0x3000#16⟩
  | .snei _ _ => ⟨"SNEI", 0xF000#16, 0x4000#16⟩
  | .ser _ _ => ⟨"SER", 0xF00F#16, 0x5000#16⟩
  | .ldi _ _ => ⟨"LDI", 0xF000#16, 0x6000#16⟩
  | .addi _ _ => ⟨"ADDI", 0xF000#16, 0x7000#16⟩
  | .mov _ _ => ⟨"MOV", 0xF00F#16, 0x8000#16⟩
  | .or _ _ => ⟨"OR", 0xF00F#16, 0x8001#16⟩
  | .and _ _ => ⟨"AND", 0xF00F#16, 0x8002#16⟩
  | .xor _ _ => ⟨"XOR", 0xF00F#16, 0x8003#16⟩
  | .add _ _ => ⟨"ADD", 0xF00F#16, 0x8004#16⟩
  | .sub _ _ => ⟨"SUB", 0xF00F#16, 0x8005#16⟩
  | .shr _ _ => ⟨"SHR", 0xF00F#16, 0x8006#16⟩
  | .subn _ _ => ⟨"SUBN", 0xF00F#16, 0x8007#16⟩
  | .shl _ _ => ⟨"SHL", 0xF00F#16, 0x800E#16⟩
  | .sner _ _ => ⟨"SNER", 0xF00F#16, 0x9000#16⟩
  | .lda _ => ⟨"LDA", 0xF000#16, 0xA000#16⟩
  | .jpv0 _ => ⟨"JPV0", 0xF000#16, 0xB000#16⟩
  | .rnd _ _ => ⟨"RND", 0xF000#16, 0xC000#16⟩
  | .drw _ _ _ => ⟨"DRW", 0xF000#16, 0xD000#16⟩
  | .skp _ => ⟨"SKP", 0xF0FF#16, 0xE09E#16⟩
  | .sknp _ => ⟨"SKNP", 0xF0FF#16, 0xE0A1#16⟩
  | .getdt _ => ⟨"GETDT", 0xF0FF#16, 0xF007#16⟩
  | .waitk _ => ⟨"WAITK", 0xF0FF#16, 0xF00A#16⟩
  | .setdt _ => ⟨"SETDT", 0xF0FF#16, 0xF015#16⟩
  | .setst _ => ⟨"SETST", 0xF0FF#16, 0xF018#16⟩
  | .adda _ => ⟨"ADDA", 0xF0FF#16, 0xF01E#16⟩
  | .font _ => ⟨"FONT", 0xF0FF#16, 0xF029#16⟩
  | .bcd _ => ⟨"BCD", 0xF0FF#16, 0xF033#16⟩
  | .stm _ => ⟨"STM", 0xF0FF#16, 0xF055#16⟩
  | .ldm _ => ⟨"LDM", 0xF0FF#16, 0xF065#16⟩

/-- A word is legal when it matches some row of the table; every other word is illegal (30_encoding.md R57). -/
def legalWord (w : Word) : Bool := opcodeTable.any (·.selects w)

/-- A ROM image fits the space from 0x200 to the end of memory (70_reset_and_hazards.md R164). -/
def romFits (bytes : List Byte) : Bool := decide (bytes.length ≤ Config.romMax)

/-- `STACK_CAP` is a natural number of at least 1, or unbounded (`none`) (92_eei_decisions.md D7). -/
def stackCapLegal : Option Nat → Bool
  | none => true
  | some c => decide (1 ≤ c)

end Sys2Proof
end

