-- ==== Sys2Proof/Decode.lean ====
section
/-! DEFINITION. Field extraction, the decoder and the encoder (30_encoding.md R50 to R59, R62). -/

namespace Sys2Proof

/-! ## The six field views of a word (30_encoding.md R51) -/

/-- Bits 15-12, the instruction family selector. -/
def nibble1 (w : Word) : Nibble := w.extractLsb' 12 4

/-- Bits 11-8, a register number. -/
def fieldX (w : Word) : Reg := w.extractLsb' 8 4

/-- Bits 7-4, a register number. -/
def fieldY (w : Word) : Reg := w.extractLsb' 4 4

/-- Bits 3-0, a sub-opcode selector or a count. -/
def fieldN (w : Word) : Nibble := w.extractLsb' 0 4

/-- Bits 11-0, a 12-bit memory address. -/
def fieldNNN (w : Word) : Addr := w.extractLsb' 0 12

/-- Bits 7-0, an 8-bit immediate. -/
def fieldNN (w : Word) : Byte := w.extractLsb' 0 8

/-! ## The two bytes of a word, high byte first (30_encoding.md R50, 20_memory.md R33) -/

/-- The byte at the lower address: bits 15-8. -/
def highByte (w : Word) : Byte := w.extractLsb' 8 8

/-- The byte at the higher address: bits 7-0. -/
def lowByte (w : Word) : Byte := w.extractLsb' 0 8

/-- Big-endian combination of the two bytes at `[PC, PC+1]` (20_memory.md R33, R35). -/
def wordOfBytes (hi lo : Byte) : Word := hi ++ lo

/-! ## The decoder -/

/-- Why bytes are no instruction: the six groups of illegal words of 30_encoding.md R57, and too few bytes. -/
inductive DecodeError where
  /-- Fewer than two bytes were given: an instruction is exactly two (R50). -/
  | truncated
  /-- `0NNN` other than 00E0 and 00EE. -/
  | bucket0
  /-- `5XYn` with `n` not 0. -/
  | bucket5
  /-- `8XYn` with `n` in 8, 9, A, B, C, D, F. -/
  | bucket8
  /-- `9XYn` with `n` not 0. -/
  | bucket9
  /-- `EXnn` with `nn` neither 9E nor A1. -/
  | bucketE
  /-- `FXnn` with `nn` none of the nine of R55. -/
  | bucketF
  deriving DecidableEq, Repr

/-- Secondary dispatch of bucket 0 on all twelve low bits (R55). -/
def decode0 (nnn : Addr) : Except DecodeError Instr :=
  match nnn.toNat with
  | 0x0E0 => .ok .cls
  | 0x0EE => .ok .ret
  | _ => .error .bucket0

/-- Bucket 5 fixes the low nibble at 0 (R55, decision D16). -/
def decode5 (x y : Reg) (n : Nibble) : Except DecodeError Instr :=
  match n.toNat with
  | 0x0 => .ok (.ser x y)
  | _ => .error .bucket5

/-- Secondary dispatch of bucket 8 on the low nibble (R55). -/
def decode8 (x y : Reg) (n : Nibble) : Except DecodeError Instr :=
  match n.toNat with
  | 0x0 => .ok (.mov x y)
  | 0x1 => .ok (.or x y)
  | 0x2 => .ok (.and x y)
  | 0x3 => .ok (.xor x y)
  | 0x4 => .ok (.add x y)
  | 0x5 => .ok (.sub x y)
  | 0x6 => .ok (.shr x y)
  | 0x7 => .ok (.subn x y)
  | 0xE => .ok (.shl x y)
  | _ => .error .bucket8

/-- Bucket 9 fixes the low nibble at 0 (R55, decision D16). -/
def decode9 (x y : Reg) (n : Nibble) : Except DecodeError Instr :=
  match n.toNat with
  | 0x0 => .ok (.sner x y)
  | _ => .error .bucket9

/-- Secondary dispatch of bucket E on the low byte (R55). -/
def decodeE (x : Reg) (nn : Byte) : Except DecodeError Instr :=
  match nn.toNat with
  | 0x9E => .ok (.skp x)
  | 0xA1 => .ok (.sknp x)
  | _ => .error .bucketE

/-- Secondary dispatch of bucket F on the low byte (R55). -/
def decodeF (x : Reg) (nn : Byte) : Except DecodeError Instr :=
  match nn.toNat with
  | 0x7 => .ok (.getdt x)
  | 0xA => .ok (.waitk x)
  | 0x15 => .ok (.setdt x)
  | 0x18 => .ok (.setst x)
  | 0x1E => .ok (.adda x)
  | 0x29 => .ok (.font x)
  | 0x33 => .ok (.bcd x)
  | 0x55 => .ok (.stm x)
  | 0x65 => .ok (.ldm x)
  | _ => .error .bucketF

/-- Primary dispatch on `nibble1` (30_encoding.md R54), then on the bucket's sub-field (R55). It reads nothing but the
word (R59) and never lets an illegal word through (R57). -/
def decodeWord (w : Word) : Except DecodeError Instr :=
  match (nibble1 w).toNat with
  | 0x0 => decode0 (fieldNNN w)
  | 0x1 => .ok (.jp (fieldNNN w))
  | 0x2 => .ok (.call (fieldNNN w))
  | 0x3 => .ok (.sei (fieldX w) (fieldNN w))
  | 0x4 => .ok (.snei (fieldX w) (fieldNN w))
  | 0x5 => decode5 (fieldX w) (fieldY w) (fieldN w)
  | 0x6 => .ok (.ldi (fieldX w) (fieldNN w))
  | 0x7 => .ok (.addi (fieldX w) (fieldNN w))
  | 0x8 => decode8 (fieldX w) (fieldY w) (fieldN w)
  | 0x9 => decode9 (fieldX w) (fieldY w) (fieldN w)
  | 0xA => .ok (.lda (fieldNNN w))
  | 0xB => .ok (.jpv0 (fieldNNN w))
  | 0xC => .ok (.rnd (fieldX w) (fieldNN w))
  | 0xD => .ok (.drw (fieldX w) (fieldY w) (fieldN w))
  | 0xE => decodeE (fieldX w) (fieldNN w)
  | _ => decodeF (fieldX w) (fieldNN w)

/-- Decode the front of a byte sequence: one instruction of two bytes, high byte first, and the bytes after it. -/
def decode : List Byte → Except DecodeError (Instr × List Byte)
  | hi :: lo :: rest =>
    match decodeWord (wordOfBytes hi lo) with
    | .ok i => .ok (i, rest)
    | .error e => .error e
  | _ => .error .truncated

/-! ## The encoder -/

/-- Format A: `nibble1 ++ NNN` (R51, R52). -/
def formatA (k : Nibble) (nnn : Addr) : Word := k ++ nnn

/-- Formats I and S: `nibble1 ++ X ++ NN`; format S fixes `NN` (R51, R52). -/
def formatI (k : Nibble) (x : Reg) (nn : Byte) : Word := k ++ x ++ nn

/-- Formats R and D: `nibble1 ++ X ++ Y ++ N`; format R fixes `N` (R51, R52). -/
def formatR (k : Nibble) (x y : Reg) (n : Nibble) : Word := k ++ x ++ y ++ n

/-- The word of an instruction: each operand in its field, the fixed nibbles of the pattern elsewhere
(30_encoding.md R52, R60, R62). -/
def encode : Instr → Word
  | .cls => 0x00E0#16
  | .ret => 0x00EE#16
  | .jp nnn => formatA 0x1#4 nnn
  | .call nnn => formatA 0x2#4 nnn
  | .sei x nn => formatI 0x3#4 x nn
  | .snei x nn => formatI 0x4#4 x nn
  | .ser x y => formatR 0x5#4 x y 0x0#4
  | .ldi x nn => formatI 0x6#4 x nn
  | .addi x nn => formatI 0x7#4 x nn
  | .mov x y => formatR 0x8#4 x y 0x0#4
  | .or x y => formatR 0x8#4 x y 0x1#4
  | .and x y => formatR 0x8#4 x y 0x2#4
  | .xor x y => formatR 0x8#4 x y 0x3#4
  | .add x y => formatR 0x8#4 x y 0x4#4
  | .sub x y => formatR 0x8#4 x y 0x5#4
  | .shr x y => formatR 0x8#4 x y 0x6#4
  | .subn x y => formatR 0x8#4 x y 0x7#4
  | .shl x y => formatR 0x8#4 x y 0xE#4
  | .sner x y => formatR 0x9#4 x y 0x0#4
  | .lda nnn => formatA 0xA#4 nnn
  | .jpv0 nnn => formatA 0xB#4 nnn
  | .rnd x nn => formatI 0xC#4 x nn
  | .drw x y n => formatR 0xD#4 x y n
  | .skp x => formatI 0xE#4 x 0x9E#8
  | .sknp x => formatI 0xE#4 x 0xA1#8
  | .getdt x => formatI 0xF#4 x 0x07#8
  | .waitk x => formatI 0xF#4 x 0x0A#8
  | .setdt x => formatI 0xF#4 x 0x15#8
  | .setst x => formatI 0xF#4 x 0x18#8
  | .adda x => formatI 0xF#4 x 0x1E#8
  | .font x => formatI 0xF#4 x 0x29#8
  | .bcd x => formatI 0xF#4 x 0x33#8
  | .stm x => formatI 0xF#4 x 0x55#8
  | .ldm x => formatI 0xF#4 x 0x65#8

/-- The two bytes of an instruction as memory holds them, high byte first (R50). -/
def encodeBytes (i : Instr) : List Byte := [highByte (encode i), lowByte (encode i)]

/-! ## The host's view of a table row -/

/-- The word whose low `nbits` bits are `w`, the bits above them 0 (the table numbers bits as R51 does). -/
def tableWord (nbits w : Nat) : Word := BitVec.ofNat 16 (w % 2 ^ nbits)

/-- The instruction the decoder reads from the bytes of `tableWord nbits w` as the hardware stores them. -/
def decodeTableWord (nbits w : Nat) : Option Instr :=
  match decode [highByte (tableWord nbits w), lowByte (tableWord nbits w)] with
  | .ok (i, _) => some i
  | .error _ => none

end Sys2Proof
end

