-- ==== Sys2Proof/Machine/State.lean ====
section
/-! DEFINITION. The state of the machine, its faults and refusals, and the state after reset (10_state.md). -/

namespace Sys2Proof.Machine

/-- The six synchronous faults of the core, each with the address or index it records (60_exceptions.md R130).
A `Fault` is raised by an operation of Machine/Ops.lean and TAKEN by `State.takeFault`: the step answers the next state
with the fault recorded and the core halted (R131, R132; log 6), so no step of this model ends in `Outcome.fault`. -/
inductive Fault where
  /-- Code 1. Raised by a STEP whose fetched word matches no instruction (R133). Safe: the spec names this fault. -/
  | decodeFailure
  /-- Code 2. Raised by 00EE with an empty stack (R134). Safe: the spec names this fault. -/
  | stackUnderflow
  /-- Code 3. Raised by instruction fetch, DXYN, FX33, FX55 and FX65 when an address is above 0xFFF; `addr` is the
  lowest such address of the access (R135). Safe: the spec faults where an implementation could wrap (D2). -/
  | memoryOutOfRange (addr : Nat)
  /-- Code 4. Raised by EX9E and EXA1 when `V[X]` is above 15; `key` is `V[X]` (R136). Safe: the spec faults where an
  implementation could mask (D18). -/
  | keyIndexOutOfRange (key : Byte)
  /-- Code 5. Raised by DXYN when a set sprite bit falls outside the 64 by 32 grid; the first such pixel (R137). Safe:
  the spec faults where an implementation could wrap or clip (D17). -/
  | framebufferOutOfRange (x y : Nat)
  /-- Code 6. Raised by 2NNN when the stack holds `STACK_CAP` entries (R138). Safe: impossible when unbounded. -/
  | stackOverflow
  deriving DecidableEq, Repr

/-- Why the model gives no meaning to what was asked of it. -/
inductive Refusal where
  /-- Raised by `exec` for an instruction not modelled yet, by its mnemonic. No arm of `exec` does so. Safe. -/
  | notModelled (mnemonic : String)
  /-- Raised by `Platform.handle` for any event but POWER_ON before power, and any but RESET and POWER_ON before the
  first RESET (70_reset_and_hazards.md R160, 93 U12). Safe: the spec defines no such event. -/
  | beforeReset
  /-- Raised by `Platform.handle` for STEP, TICK, KEY_SET and FB_SNAPSHOT before LOAD_ROM succeeded (R165, U12). Safe:
  "a model refuses such a run rather than giving it a meaning". -/
  | beforeRom
  /-- Raised by `Platform.handle` for LOAD_ROM after the boot sequence on a core that is not halted (R163). Safe: "a
  model should leave such a run unsaid". -/
  | romLoadMidRun
  deriving DecidableEq, Repr

/-- The fault record (10_state.md R24): the cause with its address, the instruction word (absent when the fetch itself
faulted) and `pc0`, the address the instruction was fetched from. -/
structure FaultRecord where
  cause : Fault
  word : Option Word
  pc : Word
  deriving DecidableEq, Repr

/-- The random source (10_state.md R23), whose state type the spec leaves open: the model holds only which seeding is
in force and how many bytes were drawn since. The bytes themselves are `Config.randomByte` (log 4). -/
structure Rng where
  seeding : Nat
  drawn : Nat
  deriving DecidableEq, Repr

/-- Memory as the bytes that differ from what an unlisted address reads as, by strictly rising address. -/
abbrev Memory := List Host.Cell

/-- `FB[y][x]`: 32 rows of 64 one-bit pixels (10_state.md R22). -/
abbrev Framebuffer := Vector (Vector Bool 64) 32

/-- All the state the spec gives the core (10_state.md section 1), as plain data. -/
structure State where
  /-- `V[0]` to `V[15]` (R10, R11). -/
  v : Vector Byte 16
  /-- The address register `I` (R12). -/
  i : Word
  /-- The program counter (R13). -/
  pc : Word
  /-- The call stack, most recent entry first (R15; log 21). -/
  stack : List Word
  /-- The delay timer `DT` (R19). -/
  dt : Byte
  /-- The sound timer `ST` (R19). -/
  st : Byte
  /-- `key[0]` to `key[15]`, true = pressed (R20). -/
  keys : Vector Bool 16
  /-- The 4096-byte memory (R21). -/
  mem : Memory
  /-- The framebuffer (R22). -/
  fb : Framebuffer
  /-- The random source (R23). -/
  rng : Rng
  /-- The fault record; the core is halted while it is not `none` (R24). -/
  fault : Option FaultRecord
  /-- The open parameter `STACK_CAP`, `none` = unbounded (R17, D7). The MODEL's own field: configuration that no
  instruction and no event writes, here so that every statement about a state holds for every value (log 3). -/
  stackCap : Option Nat
  deriving DecidableEq, Repr

/-- The state RESET leaves over a given memory (70_reset_and_hazards.md R161); `seeding` numbers the new, unspecified
seed and `cap` is the fixed parameter `STACK_CAP`. -/
def State.launch (mem : Memory) (seeding : Nat) (cap : Option Nat) : State where
  v := Vector.replicate 16 0
  i := 0
  pc := BitVec.ofNat 16 Config.progBase
  stack := [0]
  dt := 0
  st := 0
  keys := Vector.replicate 16 false
  mem := mem
  fb := Vector.replicate 32 (Vector.replicate 64 false)
  rng := ⟨seeding, 0⟩
  fault := none
  stackCap := cap

/-- The machine right after its first RESET: power-on memory with nothing listed (log 1, 2), first seeding (log 4),
the unbounded stack of the source's own design (log 3). -/
def State.reset : State := State.launch [] 0 none

end Sys2Proof.Machine
end

