-- ==== Sys2Proof/Machine/Ops.lean ====
section
/-! DEFINITION. The named operations over registers, memory, stack, keypad, framebuffer and random source; taking a
fault; instruction fetch. Every instruction is written over these. -/

namespace Sys2Proof.Machine

/-! ## General registers (10_state.md R10, R11) -/

/-- `V[r]`: sixteen independent registers, none hardwired. -/
def State.V (s : State) (r : Reg) : Byte := s.v[r.toNat]

/-- `V[r] <- b`. -/
def State.setV (s : State) (r : Reg) (b : Byte) : State := { s with v := s.v.set r.toNat b }

/-- The number of VF, the register the flag instructions also write (R11). -/
def regF : Reg := 0xF

/-! ## Program counter (10_state.md R14, 40_control_flow.md R70) -/

/-- `PC <- pc0 + 2`, done before an instruction's own semantics (30_encoding.md R56). -/
def State.advance (s : State) : State := { s with pc := s.pc + 2 }

/-- A conditional skip: `PC <- PC + 2` once more when the condition holds (R70). -/
def State.skipIf (s : State) (c : Bool) : State := if c then s.advance else s

/-! ## Memory (20_memory.md) -/

/-- The conventional CHIP-8 font, 16 glyphs of 5 bytes (93_implementation_defined.md GK1): the default of the open
parameter `FONT_ROM`. PRESUMED, unsafe: the spec gives it from general knowledge (log 2). -/
def fontRom : List Byte :=
  [0xF0, 0x90, 0x90, 0x90, 0xF0,  0x20, 0x60, 0x20, 0x20, 0x70,  0xF0, 0x10, 0xF0, 0x80, 0xF0,  0xF0, 0x10, 0xF0, 0x10, 0xF0]
  ++ [0x90, 0x90, 0xF0, 0x10, 0x10,  0xF0, 0x80, 0xF0, 0x10, 0xF0,  0xF0, 0x80, 0xF0, 0x90, 0xF0,  0xF0, 0x10, 0x20, 0x40, 0x40]
  ++ [0xF0, 0x90, 0xF0, 0x90, 0xF0,  0xF0, 0x90, 0xF0, 0x10, 0xF0,  0xF0, 0x90, 0xF0, 0x90, 0x90,  0xE0, 0x90, 0xE0, 0x90, 0xE0]
  ++ [0xF0, 0x80, 0x80, 0x80, 0xF0,  0xE0, 0x90, 0x90, 0x90, 0xE0,  0xF0, 0x80, 0xF0, 0x80, 0xF0,  0xF0, 0x80, 0xF0, 0x80, 0x80]

/-- What an address that no cell lists reads as: the font byte below 0x050, and 0x00 from there on. DESIGN CHOICE for
the open parameter `MEM_FILL`, unsafe (log 1); POWER_ON with any image lists the bytes that differ from this. -/
def background (a : Nat) : Byte := (fontRom[a]?).getD 0

/-- The byte at an address. -/
def Memory.read : Memory → Nat → Byte
  | [], a => background a
  | (k, b) :: m, a => if k = a then b else Memory.read m a

/-- A cell in front of a memory, unless it holds what an unlisted address reads as anyway. -/
def Memory.consCell (a : Nat) (b : Byte) (m : Memory) : Memory := if b = background a then m else (a, b) :: m

/-- Store one byte, keeping the canonical form. -/
def Memory.write : Memory → Nat → Byte → Memory
  | [], a, b => Memory.consCell a b []
  | (k, c) :: m, a, b =>
    if a < k then Memory.consCell a b ((k, c) :: m)
    else if a = k then Memory.consCell a b m
    else (k, c) :: Memory.write m a b

/-- Store a sequence of bytes at consecutive addresses, in increasing order (20_memory.md R39). -/
def Memory.writeBytes : Memory → Nat → List Byte → Memory
  | m, _, [] => m
  | m, a, b :: bs => Memory.writeBytes (Memory.write m a b) (a + 1) bs

/-- Read `n` consecutive bytes, in increasing order (20_memory.md R39). -/
def Memory.readBytes (m : Memory) : Nat → Nat → List Byte
  | _, 0 => []
  | a, n + 1 => m.read a :: Memory.readBytes m (a + 1) n

/-- The canonical form with every address at least `lo`: addresses strictly rising and inside the address space, no
cell equal to what its address reads as when unlisted. -/
def Memory.wfFrom : Nat → Memory → Bool
  | _, [] => true
  | lo, (k, b) :: m => decide (lo ≤ k) && decide (k < Config.memSize) && (b != background k) && Memory.wfFrom (k + 1) m

/-- A memory is in its one canonical form, so that equal memories are equal data. -/
def Memory.wf (m : Memory) : Bool := Memory.wfFrom 0 m

/-- The range check of an access to the `n` bytes from `a`, an address of unbounded size that never wraps: the whole
range is checked before anything is done, and the lowest address above 0xFFF is reported (20_memory.md R37, R46,
60_exceptions.md R135; decision D2). An access to no byte is always in range. -/
def checkRange (a n : Nat) : Except Fault Unit :=
  if 0 < n ∧ Config.memSize < a + n then .error (.memoryOutOfRange (max a Config.memSize)) else .ok ()

/-- `MemRead` of `n` consecutive bytes (20_memory.md R34, R35, R39). -/
def State.memRead (s : State) (a n : Nat) : Except Fault (List Byte) :=
  match checkRange a n with
  | .error f => .error f
  | .ok () => .ok (s.mem.readBytes a n)

/-- `MemWrite` of consecutive bytes (20_memory.md R36, R39, R46). -/
def State.memWrite (s : State) (a : Nat) (bs : List Byte) : Except Fault State :=
  match checkRange a bs.length with
  | .error f => .error f
  | .ok () => .ok { s with mem := s.mem.writeBytes a bs }

/-! ## Call stack (10_state.md R15 to R18) -/

/-- `push(v)`: `StackOverflow` when the stack holds exactly `STACK_CAP` entries, the sentinel counted (R17). -/
def State.push (s : State) (w : Word) : Except Fault State :=
  if s.stackCap = some s.stack.length then .error .stackOverflow else .ok { s with stack := w :: s.stack }

/-- `pop()`: `StackUnderflow` when the stack is empty, otherwise the top entry and the stack without it (R18). -/
def State.pop (s : State) : Except Fault (Word × State) :=
  match s.stack with
  | [] => .error .stackUnderflow
  | w :: rest => .ok (w, { s with stack := rest })

/-! ## Keypad (10_state.md R20, 44_keypad_timers.md R126) -/

/-- `key[k]` for a 4-bit key code. -/
def State.key (s : State) (k : Nibble) : Bool := s.keys[k.toNat]

/-- `key[b]` for a register's value: `KeyIndexOutOfRange` above 15, no masking (R126, decision D18). -/
def State.keyAt (s : State) (b : Byte) : Except Fault Bool :=
  if 15 < b.toNat then .error (.keyIndexOutOfRange b) else .ok (s.key (b.setWidth 4))

/-- The smallest pressed key, if any is pressed (R122). -/
def State.lowestKey (s : State) : Option Nat := s.keys.toList.findIdx? id

/-! ## Framebuffer (10_state.md R22, 43_graphics.md) -/

/-- A framebuffer with every pixel off (R112). -/
def Framebuffer.off : Framebuffer := Vector.replicate 32 (Vector.replicate 64 false)

/-- `FB[y][x]`; a position outside the grid holds no pixel and reads as off. -/
def Framebuffer.pixel (fb : Framebuffer) (x y : Nat) : Bool :=
  if h : x < 64 ∧ y < 32 then fb[y][x] else false

/-- `FB[y][x] <- FB[y][x] XOR 1` for a position inside the grid. -/
def Framebuffer.toggle (fb : Framebuffer) (x y : Nat) : Framebuffer :=
  if h : x < 64 ∧ y < 32 then fb.set y (fb[y].set x (!fb[y][x])) else fb

/-- Toggle the pixels at the given positions in order, and say whether one of them was on before its toggle
(`collision`); the first position outside the grid raises `FramebufferOutOfRange` (43_graphics.md R113, decision D17:
no wrap, no clip). -/
def Framebuffer.toggleAll : List (Nat × Nat) → Framebuffer → Bool → Except Fault (Framebuffer × Bool)
  | [], fb, collision => .ok (fb, collision)
  | (x, y) :: ps, fb, collision =>
    if x < Config.fbWidth ∧ y < Config.fbHeight then
      Framebuffer.toggleAll ps (fb.toggle x y) (collision || fb.pixel x y)
    else .error (.framebufferOutOfRange x y)

/-! ## Random source (10_state.md R23, 41_alu.md R92) -/

/-- `draw_byte()`: the free value of this draw, and the source advanced by one. -/
def State.drawByte (s : State) : Byte × State :=
  (Config.randomByte s.rng.seeding s.rng.drawn, { s with rng := { s.rng with drawn := s.rng.drawn + 1 } })

/-! ## Taking a fault (60_exceptions.md R131, R132); there is no return from one but RESET (R141) -/

/-- The core is halted while a fault is recorded (R132). -/
def State.halted (s : State) : Bool := s.fault.isSome

/-- `raise f` inside the STEP that began in state `s`: every change of the STEP is discarded, and the cause, the word
(none for a fetch fault) and `pc0` are recorded (R131, decision D3). -/
def State.takeFault (s : State) (f : Fault) (w : Option Word) : State := { s with fault := some ⟨f, w, s.pc⟩ }

/-- The end of instruction `i` begun in state `s`: its result, or the fault it raised, taken. `encode i` is the word
`i` was decoded from (log 7). -/
def commit (i : Instr) (s : State) : Except Fault State → Host.Outcome State Fault Refusal
  | .ok t => .next t
  | .error f => .next (s.takeFault f (some (encode i)))

/-! ## Instruction fetch (30_encoding.md R56, 20_memory.md R33, R35) -/

/-- `MemRead(PC, 2)`: the two bytes at `PC` and `PC + 1`, whatever the parity of `PC` (R38), high byte first. -/
def State.fetch (s : State) : Except Fault Word :=
  match checkRange s.pc.toNat 2 with
  | .error f => .error f
  | .ok () => .ok (wordOfBytes (s.mem.read s.pc.toNat) (s.mem.read (s.pc.toNat + 1)))

/-- A state whose next STEP fetches `w`: the word's two bytes stored at `PC`, and the core not halted, since a halted
core fetches nothing. Where `PC` is above 0xFFE there is no place to store a word and memory is left alone (log 9). -/
def State.placeWord (s : State) (w : Word) : State :=
  if s.pc.toNat + 2 ≤ Config.memSize then
    { s with mem := s.mem.writeBytes s.pc.toNat [highByte w, lowByte w], fault := none }
  else { s with fault := none }

end Sys2Proof.Machine
end

