-- ==== Sys2Proof/Machine/Flags.lean ====
section
/-! DEFINITION. Every flag computation: the values 8XY4, 8XY5, 8XY6, 8XY7, 8XYE and DXYN write to VF (41_alu.md R94). -/

namespace Sys2Proof.Machine

/-- A flag as a register value: 0 or 1. -/
def flagByte (f : Bool) : Byte := if f then 1 else 0

/-- Carry of an addition: the exact sum exceeds 255 (R87). -/
def carry (a b : Byte) : Bool := decide (255 < a.toNat + b.toNat)

/-- No borrow in `a - b`: false exactly when `a < b` (R88, R90). -/
def noBorrow (a b : Byte) : Bool := !decide (a.toNat < b.toNat)

/-- The bit a shift right by one loses: bit 0 (R89). -/
def lowBit (a : Byte) : Bool := a.getLsbD 0

/-- The bit a shift left by one loses: bit 7 (R91). -/
def highBit (a : Byte) : Bool := a.getLsbD 7

/-- Write a flag instruction's results: VF first and `V[X]` last, so that the result wins when `X` is 0xF
(41_alu.md R80, decision D13; log 14). -/
def State.writeFlagged (s : State) (x : Reg) (flag : Bool) (result : Byte) : State :=
  (s.setV regF (flagByte flag)).setV x result

end Sys2Proof.Machine
end

