-- ==== Sys2Proof/Machine/Operands.lean ====
section
/-! DEFINITION. Every operand form: immediates, addresses through I, register blocks, sprite pixels, decimal digits. -/

namespace Sys2Proof.Machine

/-- `NNN` zero-extended to 16 bits (30_encoding.md R53). -/
def addrWord (nnn : Addr) : Word := nnn.setWidth 16

/-- A register's value zero-extended to 16 bits (42_index_memory.md R101). -/
def byteWord (b : Byte) : Word := b.setWidth 16

/-- The effective address of the `k`-th byte of an access through `I`, an unbounded sum (42_index_memory.md R106). -/
def State.effAddr (s : State) (k : Nat) : Nat := s.i.toNat + k

/-- The number of registers FX55 and FX65 move: `V0` to `Vx` inclusive (42_index_memory.md R104, R105). -/
def blockLength (x : Reg) : Nat := x.toNat + 1

/-- The values of `V0` to `Vx`, in order (R104). -/
def State.regBlock (s : State) (x : Reg) : List Byte := s.v.toList.take (blockLength x)

/-- Registers from number `k` upward set to the given values, in order (R105). -/
def setRegsFrom : Vector Byte 16 → Nat → List Byte → Vector Byte 16
  | v, _, [] => v
  | v, k, b :: bs => setRegsFrom (v.setIfInBounds k b) (k + 1) bs

/-- `V0 <- `the first value, `V1 <- `the second, and so on (R105). -/
def State.setRegBlock (s : State) (bs : List Byte) : State := { s with v := setRegsFrom s.v 0 bs }

/-- `I <- (I + n) mod 65536` (R101, R104, R105; decision D14). -/
def State.bumpI (s : State) (n : Nat) : State := { s with i := s.i + BitVec.ofNat 16 n }

/-- The address of the glyph for a register's value, unmasked: `V[X] * 5` (R102). -/
def glyphAddr (b : Byte) : Word := BitVec.ofNat 16 (b.toNat * 5)

/-- The three decimal digits of a byte: hundreds, tens, units (R103). -/
def decimalDigits (b : Byte) : List Byte :=
  [BitVec.ofNat 8 (b.toNat / 100), BitVec.ofNat 8 (b.toNat / 10 % 10), BitVec.ofNat 8 (b.toNat % 10)]

/-- The columns at which one sprite byte has set bits when its bit 7 stands at column `x`: bit `7 - c` at `x + c`
(43_graphics.md R111, decision D17). -/
def rowColumns (x : Nat) (b : Byte) : List Nat :=
  ((List.range 8).filter (fun c => b.getLsbD (7 - c))).map (fun c => x + c)

/-- The positions of the set bits of a sprite, row by row from row `y`, each row from its bit 7: unbounded integers, no
wrap (43_graphics.md R111, R113). -/
def spritePixels (x : Nat) : Nat → List Byte → List (Nat × Nat)
  | _, [] => []
  | y, b :: bs => (rowColumns x b).map (fun c => (c, y)) ++ spritePixels x (y + 1) bs

end Sys2Proof.Machine
end

