-- ==== Sys2Proof/Machine/Alu.lean ====
section
/-! DEFINITION. Register load, arithmetic, logic, shift and random: 6XNN, 7XNN, 8XY0 to 8XY7, 8XYE, CXNN (41_alu.md).
All arithmetic is unsigned modulo 256 (R93), which is what `BitVec 8` computes. -/

namespace Sys2Proof.Machine

/-- 6XNN, `V[X] <- NN` (R81). -/
def execLdi (x : Reg) (nn : Byte) (s : State) : Host.Outcome State Fault Refusal :=
  .next (s.advance.setV x nn)

/-- 7XNN, `V[X] <- (V[X] + NN) mod 256`, no flag (R82). -/
def execAddi (x : Reg) (nn : Byte) (s : State) : Host.Outcome State Fault Refusal :=
  .next (s.advance.setV x (s.V x + nn))

/-- 8XY0, `V[X] <- V[Y]` (R83). -/
def execMov (x y : Reg) (s : State) : Host.Outcome State Fault Refusal :=
  .next (s.advance.setV x (s.V y))

/-- 8XY1, `V[X] <- V[X] OR V[Y]`, VF not written (R84). -/
def execOr (x y : Reg) (s : State) : Host.Outcome State Fault Refusal :=
  .next (s.advance.setV x (s.V x ||| s.V y))

/-- 8XY2, `V[X] <- V[X] AND V[Y]`, VF not written (R85). -/
def execAnd (x y : Reg) (s : State) : Host.Outcome State Fault Refusal :=
  .next (s.advance.setV x (s.V x &&& s.V y))

/-- 8XY3, `V[X] <- V[X] XOR V[Y]`, VF not written (R86). -/
def execXor (x y : Reg) (s : State) : Host.Outcome State Fault Refusal :=
  .next (s.advance.setV x (s.V x ^^^ s.V y))

/-- 8XY4, VF = carry, `V[X] <- (a + b) mod 256` (R87). -/
def execAdd (x y : Reg) (s : State) : Host.Outcome State Fault Refusal :=
  .next (s.advance.writeFlagged x (carry (s.V x) (s.V y)) (s.V x + s.V y))

/-- 8XY5, VF = no borrow, `V[X] <- (a - b) mod 256` (R88). -/
def execSub (x y : Reg) (s : State) : Host.Outcome State Fault Refusal :=
  .next (s.advance.writeFlagged x (noBorrow (s.V x) (s.V y)) (s.V x - s.V y))

/-- 8XY6, VF = bit 0, `V[X] <- a >> 1`; `V[Y]` is not read (R89). -/
def execShr (x _y : Reg) (s : State) : Host.Outcome State Fault Refusal :=
  .next (s.advance.writeFlagged x (lowBit (s.V x)) (s.V x >>> 1))

/-- 8XY7, VF = no borrow, `V[X] <- (b - a) mod 256` (R90). -/
def execSubn (x y : Reg) (s : State) : Host.Outcome State Fault Refusal :=
  .next (s.advance.writeFlagged x (noBorrow (s.V y) (s.V x)) (s.V y - s.V x))

/-- 8XYE, VF = bit 7, `V[X] <- (a << 1) mod 256`; `V[Y]` is not read (R91). -/
def execShl (x _y : Reg) (s : State) : Host.Outcome State Fault Refusal :=
  .next (s.advance.writeFlagged x (highBit (s.V x)) (s.V x <<< 1))

/-- CXNN, `V[X] <- draw_byte() AND NN`; one byte is drawn whatever `NN` is (R92; log 4). -/
def execRnd (x : Reg) (nn : Byte) (s : State) : Host.Outcome State Fault Refusal :=
  .next (s.advance.drawByte.2.setV x (s.advance.drawByte.1 &&& nn))

end Sys2Proof.Machine
end

