-- ==== Sys2Proof/Machine/ControlFlow.lean ====
section
/-! DEFINITION. Control transfer: 00EE, 1NNN, 2NNN, BNNN, 3XNN, 4XNN, 5XY0, 9XY0 (40_control_flow.md). -/

namespace Sys2Proof.Machine

/-- 00EE, `PC <- pop()` (R71); `StackUnderflow` on an empty stack (R134). -/
def execRet (s : State) : Host.Outcome State Fault Refusal :=
  commit .ret s <|
    match s.advance.pop with
    | .error f => .error f
    | .ok (w, t) => .ok { t with pc := w }

/-- 1NNN, `PC <- NNN` (R72). -/
def execJp (nnn : Addr) (s : State) : Host.Outcome State Fault Refusal :=
  .next { s.advance with pc := addrWord nnn }

/-- 2NNN, `push(PC)` with PC already at `pc0 + 2`, then `PC <- NNN` (R73); `StackOverflow` at the cap (R138). -/
def execCall (nnn : Addr) (s : State) : Host.Outcome State Fault Refusal :=
  commit (.call nnn) s <|
    match s.advance.push s.advance.pc with
    | .error f => .error f
    | .ok t => .ok { t with pc := addrWord nnn }

/-- BNNN, `PC <- V[0] + NNN`, not reduced to 12 bits (R78). -/
def execJpv0 (nnn : Addr) (s : State) : Host.Outcome State Fault Refusal :=
  .next { s.advance with pc := byteWord (s.V 0) + addrWord nnn }

/-- 3XNN, skip if `V[X] = NN` (R74). -/
def execSei (x : Reg) (nn : Byte) (s : State) : Host.Outcome State Fault Refusal :=
  .next (s.advance.skipIf (s.V x == nn))

/-- 4XNN, skip if `V[X]` differs from `NN` (R75). -/
def execSnei (x : Reg) (nn : Byte) (s : State) : Host.Outcome State Fault Refusal :=
  .next (s.advance.skipIf (s.V x != nn))

/-- 5XY0, skip if `V[X] = V[Y]` (R76). -/
def execSer (x y : Reg) (s : State) : Host.Outcome State Fault Refusal :=
  .next (s.advance.skipIf (s.V x == s.V y))

/-- 9XY0, skip if `V[X]` differs from `V[Y]` (R77). -/
def execSner (x y : Reg) (s : State) : Host.Outcome State Fault Refusal :=
  .next (s.advance.skipIf (s.V x != s.V y))

end Sys2Proof.Machine
end

