-- ==== Sys2Proof/Machine/Graphics.lean ====
section
/-! DEFINITION. Graphics: 00E0 and DXYN (43_graphics.md). -/

namespace Sys2Proof.Machine

/-- 00E0, every pixel off (R112). -/
def execCls (s : State) : Host.Outcome State Fault Refusal :=
  .next { s.advance with fb := Framebuffer.off }

/-- DXYN (R113): the `N` sprite bytes from `I` (the memory range is checked first, R139), each set bit toggled at
(`V[X]` + column, `V[Y]` + row), then VF = collision. The coordinates are read before VF is written. -/
def execDrw (x y : Reg) (n : Nibble) (s : State) : Host.Outcome State Fault Refusal :=
  commit (.drw x y n) s <|
    match s.memRead (s.effAddr 0) n.toNat with
    | .error f => .error f
    | .ok bytes =>
      match Framebuffer.toggleAll (spritePixels (s.V x).toNat (s.V y).toNat bytes) s.fb false with
      | .error f => .error f
      | .ok (fb, collision) => .ok ({ s.advance with fb := fb }.setV regF (flagByte collision))

end Sys2Proof.Machine
end

