-- ==== Sys2Proof/Machine/IndexMemory.lean ====
section
/-! DEFINITION. The address register and memory: ANNN, FX1E, FX29, FX33, FX55, FX65 (42_index_memory.md). -/

namespace Sys2Proof.Machine

/-- ANNN, `I <- NNN` (R100). -/
def execLda (nnn : Addr) (s : State) : Host.Outcome State Fault Refusal :=
  .next { s.advance with i := addrWord nnn }

/-- FX1E, `I <- (I + V[X]) mod 65536`, no flag (R101). -/
def execAdda (x : Reg) (s : State) : Host.Outcome State Fault Refusal :=
  .next { s.advance with i := s.i + byteWord (s.V x) }

/-- FX29, `I <- V[X] * 5` (R102). -/
def execFont (x : Reg) (s : State) : Host.Outcome State Fault Refusal :=
  .next { s.advance with i := glyphAddr (s.V x) }

/-- FX33, the decimal digits of `V[X]` to `mem[I]`, `mem[I+1]`, `mem[I+2]`; `I` unchanged (R103). -/
def execBcd (x : Reg) (s : State) : Host.Outcome State Fault Refusal :=
  commit (.bcd x) s (s.advance.memWrite (s.effAddr 0) (decimalDigits (s.V x)))

/-- FX55, `V0` to `Vx` to memory from `I`, then `I <- I + X + 1` (R104). -/
def execStm (x : Reg) (s : State) : Host.Outcome State Fault Refusal :=
  commit (.stm x) s <|
    match s.advance.memWrite (s.effAddr 0) (s.regBlock x) with
    | .error f => .error f
    | .ok t => .ok (t.bumpI (blockLength x))

/-- FX65, `V0` to `Vx` from memory at `I`, then `I <- I + X + 1` (R105). -/
def execLdm (x : Reg) (s : State) : Host.Outcome State Fault Refusal :=
  commit (.ldm x) s <|
    match s.advance.memRead (s.effAddr 0) (blockLength x) with
    | .error f => .error f
    | .ok bs => .ok ((s.advance.setRegBlock bs).bumpI (blockLength x))

end Sys2Proof.Machine
end

