-- ==== Sys2Proof/Machine/KeypadTimers.lean ====
section
/-! DEFINITION. Keypad and timers: EX9E, EXA1, FX0A, FX07, FX15, FX18 (44_keypad_timers.md). -/

namespace Sys2Proof.Machine

/-- EX9E, skip if `key[V[X]]` is pressed (R120); `KeyIndexOutOfRange` above 15 (R126). -/
def execSkp (x : Reg) (s : State) : Host.Outcome State Fault Refusal :=
  commit (.skp x) s <|
    match s.keyAt (s.V x) with
    | .error f => .error f
    | .ok pressed => .ok (s.advance.skipIf pressed)

/-- EXA1, skip if `key[V[X]]` is not pressed (R121); `KeyIndexOutOfRange` above 15 (R126). -/
def execSknp (x : Reg) (s : State) : Host.Outcome State Fault Refusal :=
  commit (.sknp x) s <|
    match s.keyAt (s.V x) with
    | .error f => .error f
    | .ok pressed => .ok (s.advance.skipIf (!pressed))

/-- FX0A (R122): with no key pressed `PC <- PC - 2`, back to this instruction; otherwise `V[X] <-` the smallest pressed
key. -/
def execWaitk (x : Reg) (s : State) : Host.Outcome State Fault Refusal :=
  match s.lowestKey with
  | none => .next { s.advance with pc := s.advance.pc - 2 }
  | some k => .next (s.advance.setV x (BitVec.ofNat 8 k))

/-- FX07, `V[X] <- DT` (R123). -/
def execGetdt (x : Reg) (s : State) : Host.Outcome State Fault Refusal :=
  .next (s.advance.setV x s.dt)

/-- FX15, `DT <- V[X]` (R124). -/
def execSetdt (x : Reg) (s : State) : Host.Outcome State Fault Refusal :=
  .next { s.advance with dt := s.V x }

/-- FX18, `ST <- V[X]` (R125). -/
def execSetst (x : Reg) (s : State) : Host.Outcome State Fault Refusal :=
  .next { s.advance with st := s.V x }

end Sys2Proof.Machine
end

