-- ==== Sys2Proof/Machine/Cycle.lean ====
section
/-! DEFINITION. The STEP cycle: halt check, fetch, decode, execute (30_encoding.md R56). -/

namespace Sys2Proof.Machine

/-- One STEP: nothing while halted (60_exceptions.md R132); else fetch, decode and execute, with a fetch fault and a
decode failure taken as R131 says, in the order of R139. -/
def stepCycle (s : State) : Host.Outcome State Fault Refusal :=
  if s.halted then .next s
  else
    match s.fetch with
    | .error f => .next (s.takeFault f none)
    | .ok w =>
      match decodeWord w with
      | .error _ => .next (s.takeFault .decodeFailure (some w))
      | .ok i => exec i s

end Sys2Proof.Machine
end

