-- ==== Sys2Proof/Machine/Events.lean ====
section
/-! DEFINITION. The host's other events, and all seven of them together in any order (00_scope.md R2 to R5).

`Machine.step` is the STEP event alone. Each event here is atomic and deterministic (R3, R5). -/

namespace Sys2Proof.Machine

/-! ## POWER_ON (70_reset_and_hazards.md R160) -/

/-- The open parameters `FONT_ROM` and `MEM_FILL` of one power-on: the bytes of 0x000 to 0x04F and of 0x050 to 0xFFF,
any values (R160, decisions D10, D11). -/
structure PowerOnImage where
  font : Vector Byte 80
  fill : Vector Byte 4016
  deriving DecidableEq, Repr

/-- All 4096 bytes of a power-on image, from address 0. -/
def PowerOnImage.bytes (img : PowerOnImage) : List Byte := img.font.toList ++ img.fill.toList

/-- The first contents of memory. Every other state element is unspecified until RESET, so POWER_ON makes no `State`. -/
def Memory.powerOn (img : PowerOnImage) : Memory := Memory.writeBytes [] 0 img.bytes

/-! ## RESET (R161) -/

/-- RESET in any state, halted included: everything but memory is re-initialised. The random source gets a new,
unspecified seed (log 5); memory and the parameter `STACK_CAP` stay as they are. -/
def State.resetEvent (s : State) : State := State.launch s.mem (s.rng.seeding + 1) s.stackCap

/-! ## LOAD_ROM (R163, R164) -/

/-- LOAD_ROM: the new state and the result value the host is handed. Failure, with nothing written, when halted or when
the image is longer than 0xE00 bytes (decision D19). -/
def State.loadRom (s : State) (bytes : List Byte) : State × Bool :=
  if s.halted then (s, false)
  else if romFits bytes then ({ s with mem := s.mem.writeBytes Config.progBase bytes }, true)
  else (s, false)

/-! ## TICK (60_exceptions.md R144), KEY_SET (R146), FB_SNAPSHOT (R148) -/

/-- One timer counted down, clamped at 0. -/
def countDown (b : Byte) : Byte := if 0 < b.toNat then b - 1 else b

/-- TICK: both timers, independently; nothing while halted. -/
def State.tick (s : State) : State :=
  if s.halted then s else { s with dt := countDown s.dt, st := countDown s.st }

/-- KEY_SET(k, p): `key[k] <- p`; nothing while halted. -/
def State.keySet (s : State) (k : Nibble) (pressed : Bool) : State :=
  if s.halted then s else { s with keys := s.keys.set k.toNat pressed }

/-- FB_SNAPSHOT: a copy of the framebuffer, also while halted. -/
def State.snapshot (s : State) : Framebuffer := s.fb

/-! ## All seven events, with the boot order (R165, R160, 93_implementation_defined.md U12) -/

/-- The events of the host (00_scope.md R2). -/
inductive Event where
  | powerOn (img : PowerOnImage)
  | reset
  | loadRom (bytes : List Byte)
  | step
  | tick
  | keySet (k : Nibble) (pressed : Bool)
  | fbSnapshot
  deriving DecidableEq, Repr

/-- What an event hands back to the host. -/
inductive Response where
  /-- Nothing. -/
  | done
  /-- The result value of LOAD_ROM (R164). -/
  | romLoaded (success : Bool)
  /-- The copy of the framebuffer (R148). -/
  | pixels (fb : Framebuffer)
  deriving DecidableEq, Repr

/-- How far the boot sequence has come (R165). Before the first RESET only memory, the number of the next seeding and
the parameter `STACK_CAP` exist: every other element is unspecified (R160), so none is held (log 22). -/
inductive Platform where
  /-- No power yet; `cap` is the fixed parameter `STACK_CAP`. -/
  | off (cap : Option Nat)
  /-- After POWER_ON, before the first RESET. -/
  | powered (mem : Memory) (seeding : Nat) (cap : Option Nat)
  /-- After RESET, before LOAD_ROM has succeeded. -/
  | ready (s : State)
  /-- Booted: STEP, TICK, KEY_SET and FB_SNAPSHOT in any interleaving (00_scope.md R4). -/
  | running (s : State)
  deriving DecidableEq, Repr

/-- POWER_ON: the first one (R160), and on a halted core, whose halted state it leaves (60_exceptions.md R132).
DESIGN CHOICE, unsafe (log 23): a POWER_ON again before the first RESET, where R160 and U12 define no event but RESET, and
one on a core that is not halted, since R165 has POWER_ON come once, give memory the new image all the same; before the
first RESET the number of the next seeding stays, as nothing was seeded yet. -/
def Platform.powerOn (img : PowerOnImage) : Platform → Platform
  | .off cap => .powered (Memory.powerOn img) 0 cap
  | .powered _ seeding cap => .powered (Memory.powerOn img) seeding cap
  | .ready s => .powered (Memory.powerOn img) (s.rng.seeding + 1) s.stackCap
  | .running s => .powered (Memory.powerOn img) (s.rng.seeding + 1) s.stackCap

/-- An event that the spec defines only on a booted core (R165): its effect there, a refusal before. -/
def Platform.whenRunning (f : State → Host.Outcome (Platform × Response) Fault Refusal) :
    Platform → Host.Outcome (Platform × Response) Fault Refusal
  | .off _ => .refused .beforeReset
  | .powered _ _ _ => .refused .beforeReset
  | .ready _ => .refused .beforeRom
  | .running s => f s

/-- RESET: the first one makes the state, a later one re-initialises it (R161). -/
def Platform.reset : Platform → Host.Outcome (Platform × Response) Fault Refusal
  | .off _ => .refused .beforeReset
  | .powered mem seeding cap => .next (.ready (State.launch mem seeding cap), .done)
  | .ready s => .next (.ready s.resetEvent, .done)
  | .running s => .next (.running s.resetEvent, .done)

/-- LOAD_ROM: success ends the boot sequence. After boot a halted core answers failure (R163, R132); on a core that
runs, the spec asks a model to leave the run unsaid (R163; log 11). -/
def Platform.loadRom (bytes : List Byte) : Platform → Host.Outcome (Platform × Response) Fault Refusal
  | .off _ => .refused .beforeReset
  | .powered _ _ _ => .refused .beforeReset
  | .ready s =>
    match s.loadRom bytes with
    | (t, true) => .next (.running t, .romLoaded true)
    | (t, false) => .next (.ready t, .romLoaded false)
  | .running s => if s.halted then .next (.running s, .romLoaded false) else .refused .romLoadMidRun

/-- STEP on a booted core. -/
def Platform.stepCore (s : State) : Host.Outcome (Platform × Response) Fault Refusal :=
  match step s with
  | .next t => .next (.running t, .done)
  | .fault f => .fault f
  | .refused r => .refused r

/-- One event of the host (00_scope.md R2). -/
def Platform.handle (e : Event) (p : Platform) : Host.Outcome (Platform × Response) Fault Refusal :=
  match e with
  | .powerOn img => .next (p.powerOn img, .done)
  | .reset => p.reset
  | .loadRom bytes => p.loadRom bytes
  | .step => p.whenRunning Platform.stepCore
  | .tick => p.whenRunning (fun s => .next (.running s.tick, .done))
  | .keySet k pressed => p.whenRunning (fun s => .next (.running (s.keySet k pressed), .done))
  | .fbSnapshot => p.whenRunning (fun s => .next (.running s, .pixels s.snapshot))

/-- A sequence of events, in order; it ends at the first refusal. -/
def Platform.run : List Event → Platform → Host.Outcome Platform Fault Refusal
  | [], p => .next p
  | e :: es, p =>
    match p.handle e with
    | .next (q, _) => Platform.run es q
    | .fault f => .fault f
    | .refused r => .refused r

end Sys2Proof.Machine
end

