-- ==== Sys2Proof/Safety.lean ====
section
/-! DEFINITION. The terms in which statements are made: what a step leaves unchanged, which instruction may write which
piece of state, the invariant of every run, and what a sprite covers. -/

namespace Sys2Proof.Safety

open Sys2Proof.Machine

/-! ## What is left unchanged -/

/-- The pieces of state other than PC. -/
inductive Piece where
  | registers | index | stack | delay | sound | keypad | memory | screen | random | fault | stackCap
  deriving DecidableEq, Repr

/-- A piece of state is the same in `t` as in `s`: register by register, and for memory address by address through the
model's read of one byte. -/
def Kept (s t : State) : Piece → Prop
  | .registers => ∀ r, t.V r = s.V r
  | .index => t.i = s.i
  | .stack => t.stack = s.stack
  | .delay => t.dt = s.dt
  | .sound => t.st = s.st
  | .keypad => ∀ k, t.key k = s.key k
  | .memory => ∀ a, t.mem.read a = s.mem.read a
  | .screen => ∀ x y, t.fb.pixel x y = s.fb.pixel x y
  | .random => t.rng = s.rng
  | .fault => t.fault = s.fault
  | .stackCap => t.stackCap = s.stackCap

/-- Every piece but the listed ones is unchanged. PC is not a piece: a statement gives it by itself. -/
def KeptAllBut (s t : State) (changed : List Piece) : Prop := ∀ p, p ∉ changed → Kept s t p

/-- Every register but those of `written` is unchanged. -/
def RegistersKeptBut (s t : State) (written : Reg → Prop) : Prop := ∀ r, ¬ written r → t.V r = s.V r

/-- Every byte of memory outside the `n` bytes from `a` is unchanged. -/
def MemoryKeptOutside (s t : State) (a n : Nat) : Prop := ∀ k, (k < a ∨ a + n ≤ k) → t.mem.read k = s.mem.read k

/-- What a flag instruction with destination `x` leaves (41_alu.md R80, R94): PC past the instruction, `result` in `V[X]`,
`flag` in VF unless `X` names VF itself, and every other register and piece of state as it was. -/
structure FlaggedResult (s t : State) (x : Reg) (flag result : Nat) : Prop where
  pc : t.pc = s.pc + 2
  result : (t.V x).toNat = result
  flag : x ≠ regF → (t.V regF).toNat = flag
  registers : RegistersKeptBut s t (fun r => r = x ∨ r = regF)
  rest : KeptAllBut s t [.registers]

/-! ## Who may write what: the columns "written by" of 10_state.md section 1, with PC and the fault record aside -/

/-- The pieces an instruction may change when it does not fault (10_state.md section 1). -/
def piecesWritten : Instr → List Piece
  | .cls => [.screen]
  | .ret | .call _ => [.stack]
  | .jp _ | .jpv0 _ | .sei _ _ | .snei _ _ | .ser _ _ | .sner _ _ | .skp _ | .sknp _ => []
  | .ldi _ _ | .addi _ _ | .mov _ _ | .or _ _ | .and _ _ | .xor _ _ => [.registers]
  | .add _ _ | .sub _ _ | .shr _ _ | .subn _ _ | .shl _ _ => [.registers]
  | .lda _ | .adda _ | .font _ => [.index]
  | .rnd _ _ => [.registers, .random]
  | .drw _ _ _ => [.registers, .screen]
  | .getdt _ | .waitk _ => [.registers]
  | .setdt _ => [.delay]
  | .setst _ => [.sound]
  | .bcd _ => [.memory]
  | .stm _ => [.memory, .index]
  | .ldm _ => [.registers, .index]

/-- The instructions that transfer control: every other one leaves PC at `pc0 + 2` (10_state.md R14). -/
def transfersControl : Instr → Bool
  | .ret | .jp _ | .call _ | .jpv0 _ => true
  | .sei _ _ | .snei _ _ | .ser _ _ | .sner _ _ | .skp _ | .sknp _ | .waitk _ => true
  | .cls | .ldi _ _ | .addi _ _ | .mov _ _ | .or _ _ | .and _ _ | .xor _ _ => false
  | .add _ _ | .sub _ _ | .shr _ _ | .subn _ _ | .shl _ _ | .lda _ | .rnd _ _ | .drw _ _ _ => false
  | .getdt _ | .setdt _ | .setst _ | .adda _ | .font _ | .bcd _ | .stm _ | .ldm _ => false

/-- The faults an instruction can raise once it is fetched and decoded: the column "raised by" of 60_exceptions.md R130. -/
def mayRaise (i : Instr) (f : Fault) : Prop :=
  match f with
  | .decodeFailure => False
  | .stackUnderflow => i = .ret
  | .memoryOutOfRange _ => (∃ x y n, i = .drw x y n) ∨ (∃ x, i = .bcd x ∨ i = .stm x ∨ i = .ldm x)
  | .keyIndexOutOfRange _ => ∃ x, i = .skp x ∨ i = .sknp x
  | .framebufferOutOfRange _ _ => ∃ x y n, i = .drw x y n
  | .stackOverflow => ∃ nnn, i = .call nnn

/-- The instructions that read the keypad (10_state.md R20). -/
def readsKeypad : Instr → Prop
  | .skp _ | .sknp _ | .waitk _ => True
  | _ => False

/-- An instruction may write VF: as the flag of the six flag instructions (10_state.md R11), as its destination `X`, or
as the last of the registers FX65 loads. -/
def mayWriteVF : Instr → Prop
  | .add _ _ | .sub _ _ | .shr _ _ | .subn _ _ | .shl _ _ | .drw _ _ _ => True
  | .ldi x _ | .addi x _ | .mov x _ | .or x _ | .and x _ | .xor x _ | .rnd x _ => x = regF
  | .getdt x | .waitk x | .ldm x => x = regF
  | _ => False

/-! ## Addresses -/

/-- Every one of the `n` bytes from `a` is an address of the memory (20_memory.md R30, R37). -/
def InMemory (a n : Nat) : Prop := n = 0 ∨ a + n ≤ Config.memSize

/-! ## What a sprite covers (43_graphics.md R111) -/

/-- Bit `7 - c` of sprite byte `r` is set: the pixel at column `V[X] + c`, row `V[Y] + r` is to be toggled. -/
def SpriteBit (s : State) (n r c : Nat) : Prop :=
  r < n ∧ c < 8 ∧ (s.mem.read (s.effAddr r)).getLsbD (7 - c) = true

/-- The sprite of `n` bytes drawn from column `x0`, row `y0` toggles the pixel at (`x`, `y`). -/
def SpriteCovers (s : State) (n x0 y0 x y : Nat) : Prop :=
  ∃ r c, SpriteBit s n r c ∧ x = x0 + c ∧ y = y0 + r

/-- A position of the 64 by 32 grid. -/
def OnScreen (x y : Nat) : Prop := x < Config.fbWidth ∧ y < Config.fbHeight

/-- Every set bit of the sprite falls on the screen. -/
def SpriteFits (s : State) (n x0 y0 : Nat) : Prop := ∀ x y, SpriteCovers s n x0 y0 x y → OnScreen x y

/-! ## The invariant of every run -/

/-- A recorded fault belongs to the instruction PC still points at: `pc0` is PC, and the recorded word is the word there,
absent exactly when it cannot be fetched (60_exceptions.md R131, R132). -/
def FaultRecordFits (s : State) (r : FaultRecord) : Prop :=
  r.pc = s.pc ∧
    match r.word with
    | none => s.fetch = .error r.cause
    | some w => s.fetch = .ok w

/-- What every run keeps: memory in canonical form, PC and return addresses in the range of 10_state.md R28, no more
stack entries than `STACK_CAP` (R17), and a fault record that fits. -/
structure Inv (s : State) : Prop where
  memory : s.mem.wf = true
  pcRange : s.pc.toNat ≤ 0x10FE
  returnRange : ∀ w ∈ s.stack, w.toNat ≤ 0x1000
  stackCap : ∀ c, s.stackCap = some c → s.stack.length ≤ c
  faultRecord : ∀ r, s.fault = some r → FaultRecordFits s r

/-- The invariant at every point of the boot sequence, with a `STACK_CAP` of at least 1 (92_eei_decisions.md D7). -/
def PlatformInv : Platform → Prop
  | .off cap => stackCapLegal cap = true
  | .powered mem _ cap => mem.wf = true ∧ stackCapLegal cap = true
  | .ready s => Inv s ∧ s.fault = none ∧ stackCapLegal s.stackCap = true
  | .running s => Inv s ∧ stackCapLegal s.stackCap = true

end Sys2Proof.Safety
end

