-- ==== Sys2Proof/Certificates/Slice0/Obligations.lean ====
section
/-! DEFINITION. The statements about the CHIP-8 core, from the numbered rules of spec/. Each docstring names the rule or
section it formalises. -/

open Sys2Proof Sys2Proof.Machine Sys2Proof.Safety

/-! ## Encoding and decoding (30_encoding.md) -/

/-- R51: the six field views of a word, as bit positions, and the word put together from its fields. -/
def Obligations.WordFieldsAreTheirBitRanges : Prop :=
  ∀ w : Word,
    (nibble1 w).toNat = w.toNat / 4096 ∧ (fieldX w).toNat = w.toNat / 256 % 16 ∧ (fieldY w).toNat = w.toNat / 16 % 16 ∧
    (fieldN w).toNat = w.toNat % 16 ∧ (fieldNNN w).toNat = w.toNat % 4096 ∧ (fieldNN w).toNat = w.toNat % 256 ∧
    w = nibble1 w ++ fieldX w ++ fieldY w ++ fieldN w ∧ fieldNNN w = fieldX w ++ fieldY w ++ fieldN w ∧
    fieldNN w = fieldY w ++ fieldN w

/-- Sections 1 to 4 of 30_encoding.md: every instruction, with every operand at every value, is what the decoder reads
from its own word, and from its two bytes at the front of any byte sequence, high byte first. -/
def Obligations.DecodeOfEncodedInstruction : Prop :=
  ∀ (i : Instr) (rest : List Byte), decodeWord (encode i) = .ok i ∧ decode (encodeBytes i ++ rest) = .ok (i, rest)

/-- The other direction: no bit of a legal word is dropped, so the word a fault record names through `encode` is the word
that was fetched. -/
def Obligations.EncodeOfDecodedWord : Prop := ∀ (w : Word) (i : Instr), decodeWord w = .ok i → encode i = w

/-- R62: 34 rows; a word selects a row exactly when `w AND mask = match`; the decoder gives an instruction of that row, and
the row is the only one the word matches. -/
def Obligations.DecoderFollowsOpcodeTable : Prop :=
  opcodeTable.length = 34 ∧
  (∀ (w : Word) (r : Row), r ∈ opcodeTable → (r.selects w = true ↔ w &&& r.mask = r.bits)) ∧
  (∀ (w : Word) (r : Row), r ∈ opcodeTable → r.selects w = true → ∃ i, decodeWord w = .ok i ∧ i.row = r) ∧
  (∀ (w : Word) (i : Instr), decodeWord w = .ok i →
    i.row ∈ opcodeTable ∧ ∀ r, r ∈ opcodeTable → (r.selects w = true ↔ r = i.row))

/-- Section 3 of 30_encoding.md (its decision D16 on the exactness of the patterns): the decoder refuses exactly the words
of the six groups listed there, each under the name of its group. -/
def Obligations.IllegalWordsAreTheSixGroups : Prop :=
  ∀ w : Word,
    (decodeWord w = .error .bucket0 ↔
      (nibble1 w).toNat = 0x0 ∧ (fieldNNN w).toNat ≠ 0x0E0 ∧ (fieldNNN w).toNat ≠ 0x0EE) ∧
    (decodeWord w = .error .bucket5 ↔ (nibble1 w).toNat = 0x5 ∧ (fieldN w).toNat ≠ 0) ∧
    (decodeWord w = .error .bucket8 ↔
      (nibble1 w).toNat = 0x8 ∧ (fieldN w).toNat ∈ [0x8, 0x9, 0xA, 0xB, 0xC, 0xD, 0xF]) ∧
    (decodeWord w = .error .bucket9 ↔ (nibble1 w).toNat = 0x9 ∧ (fieldN w).toNat ≠ 0) ∧
    (decodeWord w = .error .bucketE ↔ (nibble1 w).toNat = 0xE ∧ (fieldNN w).toNat ∉ [0x9E, 0xA1]) ∧
    (decodeWord w = .error .bucketF ↔ (nibble1 w).toNat = 0xF ∧
      (fieldNN w).toNat ∉ [0x07, 0x0A, 0x15, 0x18, 0x1E, 0x29, 0x33, 0x55, 0x65]) ∧
    decodeWord w ≠ .error .truncated

/-- The patterns of R62, on words written out by hand, at least one of each family. -/
def Obligations.SampleWordsDecodeAsSpecified : Prop :=
  decodeWord 0b0000000011101110 = .ok .ret ∧
  decodeWord 0b0001101010111100 = .ok (.jp 0xABC) ∧
  decodeWord 0b1000101010110100 = .ok (.add 0xA 0xB) ∧
  decodeWord 0b1000000100101110 = .ok (.shl 0x1 0x2) ∧
  decodeWord 0b1111000101100101 = .ok (.ldm 0x1) ∧
  decodeWord 0b1101000000010010 = .ok (.drw 0x0 0x1 0x2) ∧
  decodeWord 0b1110010110011110 = .ok (.skp 0x5) ∧
  decodeWord 0b1111001100001010 = .ok (.waitk 0x3) ∧
  decodeWord 0b0000000000000000 = .error .bucket0 ∧
  decodeWord 0b0101000100100001 = .error .bucket5

/-! ## The STEP cycle (30_encoding.md R56) -/

/-- R56: a halted core does nothing; otherwise the word at PC is fetched big-endian, a fetch above 0xFFF and an illegal word
are faults, and a legal word is executed. `exec i` is given the state STEP began in, with PC at `pc0`, and advances PC
itself. -/
def Obligations.StepRunsDecodedInstruction : Prop :=
  ∀ s : State,
    (s.fault ≠ none → step s = .next s) ∧
    (s.fault = none → 0xFFE < s.pc.toNat →
      step s = .next (s.takeFault (.memoryOutOfRange (max s.pc.toNat 0x1000)) none)) ∧
    (s.fault = none → s.pc.toNat ≤ 0xFFE → ∀ w : Word,
      w.toNat = (s.mem.read s.pc.toNat).toNat * 256 + (s.mem.read (s.pc.toNat + 1)).toNat →
      (∀ e, decodeWord w = .error e → step s = .next (s.takeFault .decodeFailure (some w))) ∧
      (∀ i, decodeWord w = .ok i → step s = exec i s))

/-- 60_exceptions.md section 1 and 30_encoding.md section 5: every STEP of every state answers a next state. A fault is
taken into the fault record, never out of the machine (log 6). -/
def Obligations.StepAlwaysAnswersNextState : Prop :=
  (∀ s : State, ∃ t, step s = .next t) ∧ (∀ (i : Instr) (s : State), ∃ t, exec i s = .next t)

/-! ## Invariants -/

/-- The state after reset meets the invariant; its memory contents and its stack capacity are the model's choice (log 1, 2,
3). -/
def Obligations.ResetMeetsRunInvariant : Prop := Inv State.reset

/-- 10_state.md section 4 (the range of PC, decision D14), sections 5 and 10, 20_memory.md section 1: from every state that
meets the invariant, STEP leads to one that meets it. -/
def Obligations.StepKeepsRunInvariant : Prop := ∀ s t : State, Inv s → step s = .next t → Inv t

/-- 00_scope.md section 7 and 70_reset_and_hazards.md: whatever events the host issues, in whatever order, from power off,
with any power-on images, ROMs and keys, the invariant holds wherever the run is not refused. What a POWER_ON after the
first one does is in part the model's choice (log 23). -/
def Obligations.EveryEventSequenceKeepsInvariant : Prop :=
  ∀ (cap : Option Nat) (es : List Event) (p : Platform), stackCapLegal cap = true →
    Platform.run es (.off cap) = .next p → PlatformInv p

/-! ## Faults (60_exceptions.md) -/

/-- Section 1 of 60_exceptions.md (decision D3, faults are precise): a STEP that ends with a fault recorded changed nothing
but the fault record, which names the address and, but for a fetch fault, the word that was fetched there. -/
def Obligations.FaultingStepChangesOnlyTheRecord : Prop :=
  ∀ (s t : State) (r : FaultRecord), s.fault = none → step s = .next t → t.fault = some r →
    t = { s with fault := some r } ∧ r.pc = s.pc ∧
      ((r.word = none ∧ 0xFFE < s.pc.toNat ∧ r.cause = .memoryOutOfRange (max s.pc.toNat 0x1000)) ∨
        ∃ w, r.word = some w ∧ s.fetch = .ok w)

/-- Section 1 of 60_exceptions.md, the column "raised by": an executing instruction raises only the faults listed for it,
and the record it writes carries its own word. -/
def Obligations.OnlyListedInstructionsRaiseEachFault : Prop :=
  ∀ (i : Instr) (s t : State) (r : FaultRecord), s.fault = none → exec i s = .next t → t.fault = some r →
    mayRaise i r.cause ∧ r.word = some (encode i) ∧ r.pc = s.pc

/-- Section 1 of 60_exceptions.md (decision D4): while a fault is recorded STEP, TICK, KEY_SET and LOAD_ROM change nothing,
the snapshot is still the framebuffer, and RESET leaves the halted state. -/
def Obligations.HaltedCoreIgnoresEvents : Prop :=
  ∀ s : State, s.fault ≠ none →
    step s = .next s ∧ s.tick = s ∧ (∀ k pressed, s.keySet k pressed = s) ∧ (∀ bytes, s.loadRom bytes = (s, false)) ∧
    s.snapshot = s.fb ∧ s.resetEvent.fault = none

/-! ## Reset and boot (70_reset_and_hazards.md) -/

/-- 10_state.md R16: after RESET the stack is exactly one entry of value 0; a 00EE with only the sentinel pops it, PC becomes
0 and the stack empty, without a fault; a 00EE with the stack empty faults. -/
def Obligations.SentinelIsPoppedOnceThenUnderflow : Prop :=
  State.reset.stack = [0] ∧ (∀ s : State, s.resetEvent.stack = [0]) ∧
  (∀ s : State, s.stack = [0] →
    ∃ t, exec .ret s = .next t ∧ t.pc = 0 ∧ t.stack = [] ∧ t.fault = s.fault) ∧
  (∀ s : State, s.stack = [] → exec .ret s = .next (s.takeFault .stackUnderflow (some 0x00EE)))

/-- Section 1 of 70_reset_and_hazards.md (the values 0, released, off and none are the spec's own decisions D8 and D9; that
each RESET takes a seeding of its own is the model's, log 5): what RESET leaves in any state, memory untouched. -/
def Obligations.ResetReinitialisesAllButMemory : Prop :=
  ∀ s : State,
    let t := s.resetEvent
    (∀ r, t.V r = 0) ∧ t.i = 0 ∧ t.pc = 0x200 ∧ t.stack = [0] ∧ t.dt = 0 ∧ t.st = 0 ∧ (∀ k, t.key k = false) ∧
    (∀ x y, t.fb.pixel x y = false) ∧ t.fault = none ∧ t.mem = s.mem ∧ t.stackCap = s.stackCap ∧
    t.rng = ⟨s.rng.seeding + 1, 0⟩

/-- Section 2 of 70_reset_and_hazards.md (launch state; decisions D8 to D11): POWER_ON, RESET and LOAD_ROM of any image
that fits lead, for every `FONT_ROM`, every `MEM_FILL` and every `STACK_CAP`, to the launch state. -/
def Obligations.BootReachesLaunchState : Prop :=
  ∀ (cap : Option Nat) (img : PowerOnImage) (rom : List Byte), rom.length ≤ 0xE00 →
    ∃ s, Platform.run [.powerOn img, .reset, .loadRom rom] (.off cap) = .next (.running s) ∧
      (∀ r, s.V r = 0) ∧ s.i = 0 ∧ s.pc = 0x200 ∧ s.stack = [0] ∧ s.dt = 0 ∧ s.st = 0 ∧ (∀ k, s.key k = false) ∧
      (∀ x y, s.fb.pixel x y = false) ∧ s.fault = none ∧ s.stackCap = cap ∧
      (∀ (a : Nat) (h : a < 0x50), s.mem.read a = img.font[a]) ∧
      (∀ (k : Nat) (h : k < rom.length), s.mem.read (0x200 + k) = rom[k]) ∧
      (∀ (a : Nat) (h : 0x50 ≤ a ∧ a < 0x1000), (a < 0x200 ∨ 0x200 + rom.length ≤ a) →
        s.mem.read a = img.fill[a - 0x50])

/-- Sections 1 and 2 of 70_reset_and_hazards.md: before the first RESET no event but POWER_ON and RESET has a meaning, and
before LOAD_ROM has succeeded neither STEP nor the events of a booted core have (log 10). Nothing is said here of a second
POWER_ON, which the model lets through by its own choice (log 23). -/
def Obligations.EventsBeforeBootAreRefused : Prop :=
  (∀ (cap : Option Nat) (e : Event), (∀ img, e ≠ .powerOn img) → Platform.handle e (.off cap) = .refused .beforeReset) ∧
  (∀ (m : Memory) (k : Nat) (cap : Option Nat) (e : Event), (∀ img, e ≠ .powerOn img) → e ≠ .reset →
    Platform.handle e (.powered m k cap) = .refused .beforeReset) ∧
  (∀ (s : State) (e : Event), (∀ img, e ≠ .powerOn img) → e ≠ .reset → (∀ bytes, e ≠ .loadRom bytes) →
    Platform.handle e (.ready s) = .refused .beforeRom)

/-- Section 2 of 70_reset_and_hazards.md (decision D19): an image of at most 0xE00 bytes is copied to 0x200 and nothing else
changes; a longer one is answered with failure and nothing is written. -/
def Obligations.LoadRomCopiesOrFails : Prop :=
  ∀ (s : State) (bytes : List Byte), s.mem.wf = true → s.fault = none →
    (bytes.length ≤ 0xE00 →
      ∃ t, s.loadRom bytes = (t, true) ∧ t.pc = s.pc ∧ KeptAllBut s t [.memory] ∧
        MemoryKeptOutside s t 0x200 bytes.length ∧
        ∀ (k : Nat) (h : k < bytes.length), t.mem.read (0x200 + k) = bytes[k]) ∧
    (0xE00 < bytes.length → s.loadRom bytes = (s, false))

/-! ## Host events (60_exceptions.md) -/

/-- R144: TICK counts each timer down by one, clamped at 0, independently; it changes nothing else, and nothing at all while
a fault is recorded. -/
def Obligations.TickCountsBothTimersDown : Prop :=
  ∀ s : State,
    (s.fault ≠ none → s.tick = s) ∧
    (s.fault = none →
      s.tick.dt.toNat = s.dt.toNat - 1 ∧ s.tick.st.toNat = s.st.toNat - 1 ∧ s.tick.pc = s.pc ∧
        KeptAllBut s s.tick [.delay, .sound])

/-- Section 2 of 44_keypad_timers.md: after `DT <- n`, `k` TICKs leave `n - k`, so `n` of them reach 0 and further ones stay
there; the sound timer likewise. -/
def Obligations.TimersReachZeroAndStayThere : Prop :=
  ∀ (s : State) (k : Nat), s.fault = none →
    (State.tick^[k] s).dt.toNat = s.dt.toNat - k ∧ (State.tick^[k] s).st.toNat = s.st.toNat - k

/-- R146: KEY_SET writes one key and nothing else; nothing at all while a fault is recorded. -/
def Obligations.KeySetWritesOneKey : Prop :=
  ∀ (s : State) (k : Nibble) (pressed : Bool),
    (s.fault ≠ none → s.keySet k pressed = s) ∧
    (s.fault = none →
      (∀ j, (s.keySet k pressed).key j = if j = k then pressed else s.key j) ∧ (s.keySet k pressed).pc = s.pc ∧
        KeptAllBut s (s.keySet k pressed) [.keypad])

/-- R148: FB_SNAPSHOT returns a copy of the framebuffer and changes no state, halted or not. -/
def Obligations.SnapshotReturnsFramebuffer : Prop :=
  ∀ s : State, Platform.handle .fbSnapshot (.running s) = .next (.running s, .pixels s.fb)

/-! ## Memory and stack operations (20_memory.md, 10_state.md) -/

/-- R34, R35: a read of one byte faults above 0xFFF and otherwise returns that byte; a fetch faults when `PC + 1` is above
0xFFF, reporting PC itself when that is already above, and otherwise returns `mem[PC] * 256 + mem[PC + 1]`. -/
def Obligations.ReadsAreBoundsChecked : Prop :=
  ∀ (s : State) (a : Nat),
    (0xFFF < a → s.memRead a 1 = .error (.memoryOutOfRange a)) ∧
    (a ≤ 0xFFF → s.memRead a 1 = .ok [s.mem.read a]) ∧
    (0xFFF < s.pc.toNat + 1 →
      s.fetch = .error (.memoryOutOfRange (if 0xFFF < s.pc.toNat then s.pc.toNat else s.pc.toNat + 1))) ∧
    (s.pc.toNat + 1 ≤ 0xFFF →
      ∃ w : Word, s.fetch = .ok w ∧
        w.toNat = (s.mem.read s.pc.toNat).toNat * 256 + (s.mem.read (s.pc.toNat + 1)).toNat)

/-- R36: a write of one byte faults above 0xFFF, and otherwise changes that byte and nothing else. -/
def Obligations.WriteChangesOneByte : Prop :=
  ∀ (s : State) (a : Nat) (b : Byte), s.mem.wf = true →
    (0xFFF < a → s.memWrite a [b] = .error (.memoryOutOfRange a)) ∧
    (a ≤ 0xFFF →
      ∃ t, s.memWrite a [b] = .ok t ∧ t.mem.read a = b ∧ MemoryKeptOutside s t a 1 ∧ t.pc = s.pc ∧
        KeptAllBut s t [.memory])

/-- Section 9 of 20_memory.md: self-modifying code is exact. What a store left at PC is what the next STEP fetches and
runs. -/
def Obligations.StoredInstructionIsFetchedNext : Prop :=
  ∀ (s t : State) (i : Instr), s.mem.wf = true → s.fault = none →
    s.memWrite s.pc.toNat (encodeBytes i) = .ok t → step t = exec i t

/-- R18: pop fails on an empty stack, and otherwise removes the top entry and returns it. -/
def Obligations.PopRemovesTopEntry : Prop :=
  ∀ s : State,
    (s.stack = [] → s.pop = .error .stackUnderflow) ∧
    (∀ w ws, s.stack = w :: ws → ∃ t, s.pop = .ok (w, t) ∧ t.stack = ws ∧ t.pc = s.pc ∧ KeptAllBut s t [.stack])

/-! ## Control transfer (40_control_flow.md) -/

/-- R72: 1NNN sets PC to NNN and changes nothing else: no state at all when NNN is the jump's own address. At 0xFFF the next
fetch faults. -/
def Obligations.JumpSetsPc : Prop :=
  ∀ (nnn : Addr) (s : State),
    decodeWord (formatA 0x1 nnn) = .ok (.jp nnn) ∧
    ∃ t, exec (.jp nnn) s = .next t ∧ t.pc.toNat = nnn.toNat ∧ KeptAllBut s t [] ∧
      (s.pc.toNat = nnn.toNat → t = s) ∧
      (nnn.toNat = 0xFFF → s.fault = none → step t = .next (t.takeFault (.memoryOutOfRange 0x1000) none))

/-- R78: BNNN sets PC to V0 + NNN, not reduced, and changes nothing else. Above 0xFFE the next STEP faults at its fetch. -/
def Obligations.JumpWithOffsetAddsV0 : Prop :=
  ∀ (nnn : Addr) (s : State),
    decodeWord (formatA 0xB nnn) = .ok (.jpv0 nnn) ∧
    ∃ t, exec (.jpv0 nnn) s = .next t ∧ t.pc.toNat = (s.V 0).toNat + nnn.toNat ∧ KeptAllBut s t [] ∧
      (0xFFE < (s.V 0).toNat + nnn.toNat → s.fault = none →
        step t = .next (t.takeFault (.memoryOutOfRange (max t.pc.toNat 0x1000)) none))

/-- R73: 2NNN pushes the address of the next instruction and sets PC to NNN; with the stack at `STACK_CAP` it faults and
changes nothing. -/
def Obligations.CallPushesReturnAddress : Prop :=
  ∀ (nnn : Addr) (s : State),
    decodeWord (formatA 0x2 nnn) = .ok (.call nnn) ∧
    (s.stackCap ≠ some s.stack.length →
      ∃ t, exec (.call nnn) s = .next t ∧ t.pc.toNat = nnn.toNat ∧ t.stack = (s.pc + 2) :: s.stack ∧
        KeptAllBut s t [.stack]) ∧
    (s.stackCap = some s.stack.length →
      exec (.call nnn) s = .next (s.takeFault .stackOverflow (some (formatA 0x2 nnn))))

/-- R71: 00EE pops PC, whatever the value; with the stack empty it faults and changes nothing. -/
def Obligations.ReturnPopsPc : Prop :=
  ∀ s : State,
    decodeWord 0x00EE = .ok .ret ∧
    (∀ w ws, s.stack = w :: ws →
      ∃ t, exec .ret s = .next t ∧ t.pc = w ∧ t.stack = ws ∧ KeptAllBut s t [.stack]) ∧
    (s.stack = [] → exec .ret s = .next (s.takeFault .stackUnderflow (some 0x00EE)))

/-- Section 2 of 40_control_flow.md and the source's own scenario: a return that finds the stack as the call left it comes
back to the instruction after the call, with the stack as before it, whatever ran between. -/
def Obligations.ReturnFollowsItsCall : Prop :=
  ∀ (nnn : Addr) (s t u : State), s.stackCap ≠ some s.stack.length → exec (.call nnn) s = .next t →
    u.stack = t.stack → ∃ v, exec .ret u = .next v ∧ v.pc = s.pc + 2 ∧ v.stack = s.stack

/-- R74 to R77: the four conditional skips add 2 more to PC exactly when their comparison holds, and change nothing else. -/
def Obligations.SkipsCompareAndAdvance : Prop :=
  ∀ (x y : Reg) (nn : Byte) (s : State),
    decodeWord (formatI 0x3 x nn) = .ok (.sei x nn) ∧ decodeWord (formatI 0x4 x nn) = .ok (.snei x nn) ∧
    decodeWord (formatR 0x5 x y 0) = .ok (.ser x y) ∧ decodeWord (formatR 0x9 x y 0) = .ok (.sner x y) ∧
    (∀ n : Nibble, n ≠ 0 →
      decodeWord (formatR 0x5 x y n) = .error .bucket5 ∧ decodeWord (formatR 0x9 x y n) = .error .bucket9) ∧
    (∃ t, exec (.sei x nn) s = .next t ∧ t.pc = (if s.V x = nn then s.pc + 4 else s.pc + 2) ∧ KeptAllBut s t []) ∧
    (∃ t, exec (.snei x nn) s = .next t ∧ t.pc = (if s.V x ≠ nn then s.pc + 4 else s.pc + 2) ∧ KeptAllBut s t []) ∧
    (∃ t, exec (.ser x y) s = .next t ∧ t.pc = (if s.V x = s.V y then s.pc + 4 else s.pc + 2) ∧ KeptAllBut s t []) ∧
    (∃ t, exec (.sner x y) s = .next t ∧ t.pc = (if s.V x ≠ s.V y then s.pc + 4 else s.pc + 2) ∧ KeptAllBut s t [])

/-- Section 5 of 70_reset_and_hazards.md: a STEP at a jump to itself changes no state at all. -/
def Obligations.JumpToItselfIsFixedPoint : Prop :=
  ∀ (s : State) (nnn : Addr), s.pc.toNat = nnn.toNat → s.fetch = .ok (formatA 0x1 nnn) → step s = .next s

/-! ## Arithmetic and logic (41_alu.md) -/

/-- R81: 6XNN loads the immediate. -/
def Obligations.LoadImmediateWritesRegister : Prop :=
  ∀ (x : Reg) (nn : Byte) (s : State),
    decodeWord (formatI 0x6 x nn) = .ok (.ldi x nn) ∧
    ∃ t, exec (.ldi x nn) s = .next t ∧ t.pc = s.pc + 2 ∧ t.V x = nn ∧ RegistersKeptBut s t (fun r => r = x) ∧
      KeptAllBut s t [.registers]

/-- R82: 7XNN adds the immediate modulo 256; VF is not written unless it is the destination. -/
def Obligations.AddImmediateWrapsWithoutFlag : Prop :=
  ∀ (x : Reg) (nn : Byte) (s : State),
    decodeWord (formatI 0x7 x nn) = .ok (.addi x nn) ∧
    ∃ t, exec (.addi x nn) s = .next t ∧ t.pc = s.pc + 2 ∧ (t.V x).toNat = ((s.V x).toNat + nn.toNat) % 256 ∧
      RegistersKeptBut s t (fun r => r = x) ∧ KeptAllBut s t [.registers]

/-- R83: 8XY0 copies a register. -/
def Obligations.MoveCopiesRegister : Prop :=
  ∀ (x y : Reg) (s : State),
    decodeWord (formatR 0x8 x y 0x0) = .ok (.mov x y) ∧
    ∃ t, exec (.mov x y) s = .next t ∧ t.pc = s.pc + 2 ∧ t.V x = s.V y ∧ RegistersKeptBut s t (fun r => r = x) ∧
      KeptAllBut s t [.registers]

/-- R84, R85, R86: the three bitwise instructions, bit by bit; VF is not written unless it is the destination. -/
def Obligations.LogicIsBitwiseWithoutFlag : Prop :=
  ∀ (x y : Reg) (s : State),
    decodeWord (formatR 0x8 x y 0x1) = .ok (.or x y) ∧ decodeWord (formatR 0x8 x y 0x2) = .ok (.and x y) ∧
    decodeWord (formatR 0x8 x y 0x3) = .ok (.xor x y) ∧
    (∃ t, exec (.or x y) s = .next t ∧ t.pc = s.pc + 2 ∧
      (∀ k, (t.V x).getLsbD k = ((s.V x).getLsbD k || (s.V y).getLsbD k)) ∧
      RegistersKeptBut s t (fun r => r = x) ∧ KeptAllBut s t [.registers]) ∧
    (∃ t, exec (.and x y) s = .next t ∧ t.pc = s.pc + 2 ∧
      (∀ k, (t.V x).getLsbD k = ((s.V x).getLsbD k && (s.V y).getLsbD k)) ∧
      RegistersKeptBut s t (fun r => r = x) ∧ KeptAllBut s t [.registers]) ∧
    (∃ t, exec (.xor x y) s = .next t ∧ t.pc = s.pc + 2 ∧
      (∀ k, (t.V x).getLsbD k = ((s.V x).getLsbD k ^^ (s.V y).getLsbD k)) ∧
      RegistersKeptBut s t (fun r => r = x) ∧ KeptAllBut s t [.registers])

/-- Section 4 of 41_alu.md (decision D13 when X or Y names VF): 8XY4 stores the sum modulo 256 and sets VF to the carry. -/
def Obligations.AddSetsCarry : Prop :=
  ∀ (x y : Reg) (s : State),
    decodeWord (formatR 0x8 x y 0x4) = .ok (.add x y) ∧
    ∃ t, exec (.add x y) s = .next t ∧
      FlaggedResult s t x (if 255 < (s.V x).toNat + (s.V y).toNat then 1 else 0)
        (((s.V x).toNat + (s.V y).toNat) % 256)

/-- Section 4 of 41_alu.md (decision D13 when X or Y names VF): 8XY5 and 8XY7 store the difference modulo 256, in the two
orders, and set VF to 0 exactly on a borrow. -/
def Obligations.SubtractionsClearFlagOnBorrow : Prop :=
  ∀ (x y : Reg) (s : State),
    decodeWord (formatR 0x8 x y 0x5) = .ok (.sub x y) ∧ decodeWord (formatR 0x8 x y 0x7) = .ok (.subn x y) ∧
    (∃ t, exec (.sub x y) s = .next t ∧
      FlaggedResult s t x (if (s.V x).toNat < (s.V y).toNat then 0 else 1)
        (((s.V x).toNat + 256 - (s.V y).toNat) % 256)) ∧
    (∃ t, exec (.subn x y) s = .next t ∧
      FlaggedResult s t x (if (s.V y).toNat < (s.V x).toNat then 0 else 1)
        (((s.V y).toNat + 256 - (s.V x).toNat) % 256))

/-- Section 4 of 41_alu.md (decision D13 when X names VF): 8XY6 and 8XYE shift V[X] by one place, put the lost bit in VF,
and ignore Y. -/
def Obligations.ShiftsMoveLostBitToFlag : Prop :=
  ∀ (x y : Reg) (s : State),
    decodeWord (formatR 0x8 x y 0x6) = .ok (.shr x y) ∧ decodeWord (formatR 0x8 x y 0xE) = .ok (.shl x y) ∧
    (∃ t, exec (.shr x y) s = .next t ∧ FlaggedResult s t x ((s.V x).toNat % 2) ((s.V x).toNat / 2)) ∧
    (∃ t, exec (.shl x y) s = .next t ∧ FlaggedResult s t x ((s.V x).toNat / 128) (2 * (s.V x).toNat % 256))

/-- Section 5 of 41_alu.md (decision D12): CXNN draws one byte, the free value of log 4, whatever NN is; every bit of V[X]
where NN has a 0 is 0, and the others are the drawn byte's. Holds for every value of the free value. -/
def Obligations.RandomByteIsMaskedDraw : Prop :=
  ∀ (x : Reg) (nn : Byte) (s : State),
    decodeWord (formatI 0xC x nn) = .ok (.rnd x nn) ∧
    ∃ t, exec (.rnd x nn) s = .next t ∧ t.pc = s.pc + 2 ∧
      (∀ k, (t.V x).getLsbD k = ((Config.randomByte s.rng.seeding s.rng.drawn).getLsbD k && nn.getLsbD k)) ∧
      t.rng = ⟨s.rng.seeding, s.rng.drawn + 1⟩ ∧ RegistersKeptBut s t (fun r => r = x) ∧
      KeptAllBut s t [.registers, .random]

/-! ## Address register and memory (42_index_memory.md) -/

/-- R100: ANNN loads I. -/
def Obligations.LoadAddressSetsIndex : Prop :=
  ∀ (nnn : Addr) (s : State),
    decodeWord (formatA 0xA nnn) = .ok (.lda nnn) ∧
    ∃ t, exec (.lda nnn) s = .next t ∧ t.pc = s.pc + 2 ∧ t.i.toNat = nnn.toNat ∧ KeptAllBut s t [.index]

/-- Section 2 of 42_index_memory.md (decision D14: modulo 65536): FX1E adds V[X] to I, with no flag and no fault. -/
def Obligations.AddToIndexWrapsAt16Bits : Prop :=
  ∀ (x : Reg) (s : State),
    decodeWord (formatI 0xF x 0x1E) = .ok (.adda x) ∧
    ∃ t, exec (.adda x) s = .next t ∧ t.pc = s.pc + 2 ∧ t.i.toNat = (s.i.toNat + (s.V x).toNat) % 65536 ∧
      KeptAllBut s t [.index]

/-- R102: FX29 sets I to V[X] * 5, unmasked. -/
def Obligations.FontPointsAtGlyph : Prop :=
  ∀ (x : Reg) (s : State),
    decodeWord (formatI 0xF x 0x29) = .ok (.font x) ∧
    ∃ t, exec (.font x) s = .next t ∧ t.pc = s.pc + 2 ∧ t.i.toNat = (s.V x).toNat * 5 ∧ KeptAllBut s t [.index]

/-- R103: FX33 stores the three decimal digits of V[X] at I, I+1, I+2 and leaves I; with I + 2 above 0xFFF it faults and
writes nothing. -/
def Obligations.BcdStoresDecimalDigits : Prop :=
  ∀ (x : Reg) (s : State), s.mem.wf = true →
    decodeWord (formatI 0xF x 0x33) = .ok (.bcd x) ∧
    (s.i.toNat + 2 ≤ 0xFFF →
      ∃ t, exec (.bcd x) s = .next t ∧ t.pc = s.pc + 2 ∧
        (t.mem.read (s.effAddr 0)).toNat = (s.V x).toNat / 100 ∧
        (t.mem.read (s.effAddr 1)).toNat = (s.V x).toNat / 10 % 10 ∧
        (t.mem.read (s.effAddr 2)).toNat = (s.V x).toNat % 10 ∧
        MemoryKeptOutside s t (s.effAddr 0) 3 ∧ KeptAllBut s t [.memory]) ∧
    (0xFFF < s.i.toNat + 2 →
      exec (.bcd x) s = .next (s.takeFault (.memoryOutOfRange (max s.i.toNat 0x1000)) (some (formatI 0xF x 0x33))))

/-- R104: FX55 stores V0 to V[X] at I, I+1, …, and adds X + 1 to I; with I + X above 0xFFF it faults and changes nothing. -/
def Obligations.StoreRegistersWritesBlock : Prop :=
  ∀ (x : Reg) (s : State), s.mem.wf = true →
    decodeWord (formatI 0xF x 0x55) = .ok (.stm x) ∧
    (s.i.toNat + x.toNat ≤ 0xFFF →
      ∃ t, exec (.stm x) s = .next t ∧ t.pc = s.pc + 2 ∧ t.i.toNat = s.i.toNat + x.toNat + 1 ∧
        (∀ r : Reg, r.toNat ≤ x.toNat → t.mem.read (s.effAddr r.toNat) = s.V r) ∧
        MemoryKeptOutside s t (s.effAddr 0) (x.toNat + 1) ∧ KeptAllBut s t [.memory, .index]) ∧
    (0xFFF < s.i.toNat + x.toNat →
      exec (.stm x) s = .next (s.takeFault (.memoryOutOfRange (max s.i.toNat 0x1000)) (some (formatI 0xF x 0x55))))

/-- Section 3 of 42_index_memory.md: FX65 loads V0 to V[X] from I, I+1, …, leaves the registers above V[X] and memory, and
adds X + 1 to I; with I + X above 0xFFF it faults and changes nothing. -/
def Obligations.LoadRegistersReadsBlock : Prop :=
  ∀ (x : Reg) (s : State),
    decodeWord (formatI 0xF x 0x65) = .ok (.ldm x) ∧
    (s.i.toNat + x.toNat ≤ 0xFFF →
      ∃ t, exec (.ldm x) s = .next t ∧ t.pc = s.pc + 2 ∧ t.i.toNat = s.i.toNat + x.toNat + 1 ∧
        (∀ r : Reg, r.toNat ≤ x.toNat → t.V r = s.mem.read (s.effAddr r.toNat)) ∧
        RegistersKeptBut s t (fun r => r.toNat ≤ x.toNat) ∧ KeptAllBut s t [.registers, .index]) ∧
    (0xFFF < s.i.toNat + x.toNat →
      exec (.ldm x) s = .next (s.takeFault (.memoryOutOfRange (max s.i.toNat 0x1000)) (some (formatI 0xF x 0x65))))

/-- Section 3 of 42_index_memory.md, the source's round-trip law: FX65 with the same X and the same I, over the memory FX55
left and with any registers and any other state between, brings V0 to V[X] back and leaves the same I as FX55. -/
def Obligations.LoadRestoresStoredRegisters : Prop :=
  ∀ (x : Reg) (s t u : State), s.mem.wf = true → s.i.toNat + x.toNat ≤ 0xFFF → exec (.stm x) s = .next t →
    u.mem = t.mem → u.i = s.i →
    ∃ v, exec (.ldm x) u = .next v ∧ (∀ r : Reg, r.toNat ≤ x.toNat → v.V r = s.V r) ∧ v.i = t.i

/-! ## Graphics (43_graphics.md) -/

/-- R112: 00E0 turns every pixel off and changes nothing else. -/
def Obligations.ClearTurnsEveryPixelOff : Prop :=
  ∀ s : State,
    decodeWord 0x00E0 = .ok .cls ∧
    ∃ t, exec .cls s = .next t ∧ t.pc = s.pc + 2 ∧ (∀ x y, t.fb.pixel x y = false) ∧ KeptAllBut s t [.screen]

/-- Section 2 of 43_graphics.md (decision D17 for the bit and row order and the edges): a DXYN whose bytes are in memory and
whose set bits all fall on the screen toggles exactly the pixels it covers, and sets VF to 1 exactly when one of them was
on. The coordinates are the registers' values before VF is written. -/
def Obligations.DrawTogglesCoveredPixels : Prop :=
  ∀ (x y : Reg) (n : Nibble) (s : State),
    InMemory (s.effAddr 0) n.toNat → SpriteFits s n.toNat (s.V x).toNat (s.V y).toNat →
    ∃ t, exec (.drw x y n) s = .next t ∧ t.pc = s.pc + 2 ∧
      (∀ px py, t.fb.pixel px py = true ↔
        (s.fb.pixel px py = true ∧ ¬SpriteCovers s n.toNat (s.V x).toNat (s.V y).toNat px py) ∨
        (s.fb.pixel px py = false ∧ SpriteCovers s n.toNat (s.V x).toNat (s.V y).toNat px py)) ∧
      ((∃ px py, SpriteCovers s n.toNat (s.V x).toNat (s.V y).toNat px py ∧ s.fb.pixel px py = true) → t.V regF = 1) ∧
      ((∀ px py, SpriteCovers s n.toNat (s.V x).toNat (s.V y).toNat px py → s.fb.pixel px py = false) → t.V regF = 0) ∧
      RegistersKeptBut s t (fun r => r = regF) ∧ KeptAllBut s t [.registers, .screen]

/-- Section 2 of 43_graphics.md and section 1 of 60_exceptions.md (decisions D2, D3, D6, D17): a DXYN whose bytes reach above
0xFFF takes the memory fault whatever the pixels; otherwise the first set bit, row by row and from bit 7 on, that falls off
the screen takes the framebuffer fault with its position. -/
def Obligations.DrawFaultsInOrder : Prop :=
  ∀ (x y : Reg) (n : Nibble) (s : State),
    (¬InMemory (s.effAddr 0) n.toNat →
      exec (.drw x y n) s =
        .next (s.takeFault (.memoryOutOfRange (max s.i.toNat 0x1000)) (some (formatR 0xD x y n)))) ∧
    (∀ r c, InMemory (s.effAddr 0) n.toNat → SpriteBit s n.toNat r c →
      ¬OnScreen ((s.V x).toNat + c) ((s.V y).toNat + r) →
      (∀ r' c', SpriteBit s n.toNat r' c' → r' < r ∨ (r' = r ∧ c' < c) →
        OnScreen ((s.V x).toNat + c') ((s.V y).toNat + r')) →
      exec (.drw x y n) s =
        .next (s.takeFault (.framebufferOutOfRange ((s.V x).toNat + c) ((s.V y).toNat + r))
          (some (formatR 0xD x y n))))

/-- Section 3 of 43_graphics.md: the same DXYN over what the first one drew restores the framebuffer; and when the covered
pixels were all off and there is one, the second sets VF to 1. -/
def Obligations.DrawingTwiceRestoresScreen : Prop :=
  ∀ (x y : Reg) (n : Nibble) (s : State),
    InMemory (s.effAddr 0) n.toNat → SpriteFits s n.toNat (s.V x).toNat (s.V y).toNat →
    ∃ t, exec (.drw x y n) s = .next t ∧
      ∀ u : State, u.fb = t.fb → u.mem = s.mem → u.i = s.i → u.V x = s.V x → u.V y = s.V y →
        ∃ v, exec (.drw x y n) u = .next v ∧ (∀ px py, v.fb.pixel px py = s.fb.pixel px py) ∧
          ((∀ px py, SpriteCovers s n.toNat (s.V x).toNat (s.V y).toNat px py → s.fb.pixel px py = false) →
            (∃ px py, SpriteCovers s n.toNat (s.V x).toNat (s.V y).toNat px py) → v.V regF = 1)

/-! ## Keypad and timers (44_keypad_timers.md) -/

/-- Section 1 of 44_keypad_timers.md (decision D18 for the fault): EX9E and EXA1 skip on the level of key V[X]; above 15 they
fault and change nothing. -/
def Obligations.KeySkipsTestKeyLevel : Prop :=
  ∀ (x : Reg) (s : State),
    decodeWord (formatI 0xE x 0x9E) = .ok (.skp x) ∧ decodeWord (formatI 0xE x 0xA1) = .ok (.sknp x) ∧
    (∀ k : Nibble, (s.V x).toNat = k.toNat →
      (∃ t, exec (.skp x) s = .next t ∧ t.pc = (if s.key k = true then s.pc + 4 else s.pc + 2) ∧ KeptAllBut s t []) ∧
      (∃ t, exec (.sknp x) s = .next t ∧ t.pc = (if s.key k = false then s.pc + 4 else s.pc + 2) ∧ KeptAllBut s t [])) ∧
    (15 < (s.V x).toNat →
      exec (.skp x) s = .next (s.takeFault (.keyIndexOutOfRange (s.V x)) (some (formatI 0xE x 0x9E))) ∧
      exec (.sknp x) s = .next (s.takeFault (.keyIndexOutOfRange (s.V x)) (some (formatI 0xE x 0xA1))))

/-- R122: with no key pressed FX0A leaves the whole state as it was, PC included; otherwise it stores the smallest pressed
key. -/
def Obligations.WaitKeyRepeatsUntilPressed : Prop :=
  ∀ (x : Reg) (s : State),
    decodeWord (formatI 0xF x 0x0A) = .ok (.waitk x) ∧
    ((∀ k, s.key k = false) → exec (.waitk x) s = .next s) ∧
    (∀ k : Nibble, s.key k = true → (∀ j : Nibble, j.toNat < k.toNat → s.key j = false) →
      ∃ t, exec (.waitk x) s = .next t ∧ t.pc = s.pc + 2 ∧ (t.V x).toNat = k.toNat ∧
        RegistersKeptBut s t (fun r => r = x) ∧ KeptAllBut s t [.registers])

/-- R123, R125 and section 2 of 44_keypad_timers.md: FX07 copies DT to V[X], FX15 copies V[X] to DT, FX18 copies V[X] to
ST. -/
def Obligations.TimerInstructionsCopyTimers : Prop :=
  ∀ (x : Reg) (s : State),
    decodeWord (formatI 0xF x 0x07) = .ok (.getdt x) ∧ decodeWord (formatI 0xF x 0x15) = .ok (.setdt x) ∧
    decodeWord (formatI 0xF x 0x18) = .ok (.setst x) ∧
    (∃ t, exec (.getdt x) s = .next t ∧ t.pc = s.pc + 2 ∧ t.V x = s.dt ∧ RegistersKeptBut s t (fun r => r = x) ∧
      KeptAllBut s t [.registers]) ∧
    (∃ t, exec (.setdt x) s = .next t ∧ t.pc = s.pc + 2 ∧ t.dt = s.V x ∧ KeptAllBut s t [.delay]) ∧
    (∃ t, exec (.setst x) s = .next t ∧ t.pc = s.pc + 2 ∧ t.st = s.V x ∧ KeptAllBut s t [.sound])

/-! ## Rules of the whole machine -/

/-- Section 1 of 10_state.md, the columns "written by": whatever the state, an instruction changes only the pieces of state
it is listed for, and PC past itself unless it transfers control; or it takes a fault and changes the fault record alone. -/
def Obligations.InstructionsWriteOnlyTheirOwnState : Prop :=
  ∀ (i : Instr) (s t : State), exec i s = .next t →
    (KeptAllBut s t (piecesWritten i) ∧ (transfersControl i = false → t.pc = s.pc + 2)) ∨
      ∃ f, mayRaise i f ∧ t = s.takeFault f (some (encode i))

/-- Section 2 of 10_state.md and section 1 of 41_alu.md: VF changes only by the six flag instructions, or as the destination
an instruction names. -/
def Obligations.OnlyFlagInstructionsWriteVF : Prop :=
  ∀ (i : Instr) (s t : State), exec i s = .next t → ¬mayWriteVF i → t.V regF = s.V regF

/-- Section 7 of 10_state.md: only EX9E, EXA1 and FX0A read the keypad. With any other keys every other instruction does the
same, and none changes the keys. -/
def Obligations.OnlyKeyInstructionsReadKeypad : Prop :=
  ∀ (i : Instr) (s t : State) (keys : Vector Bool 16), ¬readsKeypad i → exec i s = .next t →
    exec i { s with keys := keys } = .next { t with keys := keys }

/-- Section 6 of 10_state.md and section 4 of 60_exceptions.md: no instruction reads ST. Two states that differ in the sound
timer alone lead by STEP to states that differ in it at most. -/
def Obligations.SoundTimerIsUnobservable : Prop :=
  ∀ (s t : State) (v : Byte), step s = .next t → ∃ v', step { s with st := v } = .next { t with st := v' }
end

