-- ==== Sys2Proof/Laws/Decode.lean ====
section
/-! SUPPORT. The fields of a word in each format (30_encoding.md R51, R52), and a word put together from its fields. -/

namespace Sys2Proof.Laws

/-! ## Bits of a word in each format -/

theorem getLsbD_formatA (k : Nibble) (a : Addr) (i : Nat) :
    (formatA k a).getLsbD i = if i < 12 then a.getLsbD i else k.getLsbD (i - 12) := BitVec.getLsbD_append

theorem getLsbD_formatI (k : Nibble) (x : Reg) (nn : Byte) (i : Nat) :
    (formatI k x nn).getLsbD i =
      if i < 8 then nn.getLsbD i else if i - 8 < 4 then x.getLsbD (i - 8) else k.getLsbD (i - 8 - 4) :=
  BitVec.getLsbD_append.trans (by rw [BitVec.getLsbD_append])

theorem getLsbD_formatR (k : Nibble) (x y : Reg) (n : Nibble) (i : Nat) :
    (formatR k x y n).getLsbD i =
      if i < 4 then n.getLsbD i else if i - 4 < 4 then y.getLsbD (i - 4)
      else if i - 4 - 4 < 4 then x.getLsbD (i - 4 - 4) else k.getLsbD (i - 4 - 4 - 4) :=
  BitVec.getLsbD_append.trans (by rw [BitVec.getLsbD_append, BitVec.getLsbD_append])

/-! ## Fields of a word in each format -/

@[simp] theorem nibble1_formatA (k : Nibble) (a : Addr) : nibble1 (formatA k a) = k := by
  apply BitVec.eq_of_getLsbD_eq
  intro i hi
  rw [nibble1, BitVec.getLsbD_extractLsb', getLsbD_formatA, if_neg (by omega), show 12 + i - 12 = i by omega]
  simp [hi]

@[simp] theorem fieldNNN_formatA (k : Nibble) (a : Addr) : fieldNNN (formatA k a) = a := by
  apply BitVec.eq_of_getLsbD_eq
  intro i hi
  rw [fieldNNN, BitVec.getLsbD_extractLsb', getLsbD_formatA, if_pos (by omega), Nat.zero_add]
  simp [hi]

@[simp] theorem nibble1_formatI (k : Nibble) (x : Reg) (nn : Byte) : nibble1 (formatI k x nn) = k := by
  apply BitVec.eq_of_getLsbD_eq
  intro i hi
  rw [nibble1, BitVec.getLsbD_extractLsb', getLsbD_formatI, if_neg (by omega), if_neg (by omega),
    show 12 + i - 8 - 4 = i by omega]
  simp [hi]

@[simp] theorem fieldX_formatI (k : Nibble) (x : Reg) (nn : Byte) : fieldX (formatI k x nn) = x := by
  apply BitVec.eq_of_getLsbD_eq
  intro i hi
  rw [fieldX, BitVec.getLsbD_extractLsb', getLsbD_formatI, if_neg (by omega), if_pos (by omega),
    show 8 + i - 8 = i by omega]
  simp [hi]

@[simp] theorem fieldNN_formatI (k : Nibble) (x : Reg) (nn : Byte) : fieldNN (formatI k x nn) = nn := by
  apply BitVec.eq_of_getLsbD_eq
  intro i hi
  rw [fieldNN, BitVec.getLsbD_extractLsb', getLsbD_formatI, if_pos (by omega), Nat.zero_add]
  simp [hi]

@[simp] theorem nibble1_formatR (k : Nibble) (x y : Reg) (n : Nibble) : nibble1 (formatR k x y n) = k := by
  apply BitVec.eq_of_getLsbD_eq
  intro i hi
  rw [nibble1, BitVec.getLsbD_extractLsb', getLsbD_formatR, if_neg (by omega), if_neg (by omega), if_neg (by omega),
    show 12 + i - 4 - 4 - 4 = i by omega]
  simp [hi]

@[simp] theorem fieldX_formatR (k : Nibble) (x y : Reg) (n : Nibble) : fieldX (formatR k x y n) = x := by
  apply BitVec.eq_of_getLsbD_eq
  intro i hi
  rw [fieldX, BitVec.getLsbD_extractLsb', getLsbD_formatR, if_neg (by omega), if_neg (by omega), if_pos (by omega),
    show 8 + i - 4 - 4 = i by omega]
  simp [hi]

@[simp] theorem fieldY_formatR (k : Nibble) (x y : Reg) (n : Nibble) : fieldY (formatR k x y n) = y := by
  apply BitVec.eq_of_getLsbD_eq
  intro i hi
  rw [fieldY, BitVec.getLsbD_extractLsb', getLsbD_formatR, if_neg (by omega), if_pos (by omega),
    show 4 + i - 4 = i by omega]
  simp [hi]

@[simp] theorem fieldN_formatR (k : Nibble) (x y : Reg) (n : Nibble) : fieldN (formatR k x y n) = n := by
  apply BitVec.eq_of_getLsbD_eq
  intro i hi
  rw [fieldN, BitVec.getLsbD_extractLsb', getLsbD_formatR, if_pos (by omega), Nat.zero_add]
  simp [hi]

/-- The two bytes of a word, put together again in fetch order, are the word. -/
@[simp] theorem wordOfBytes_highByte_lowByte (w : Word) : wordOfBytes (highByte w) (lowByte w) = w := by
  apply BitVec.eq_of_getLsbD_eq
  intro i hi
  refine (BitVec.getLsbD_append (x := highByte w) (y := lowByte w)).trans ?_
  simp only [highByte, lowByte, BitVec.getLsbD_extractLsb']
  split
  · simp [*]
  · rw [show 8 + (i - 8) = i by omega]
    simp only [show i - 8 < 8 by omega, decide_true, Bool.true_and]

@[simp] theorem highByte_wordOfBytes (hi lo : Byte) : highByte (wordOfBytes hi lo) = hi := by
  apply BitVec.eq_of_getLsbD_eq
  intro i h
  rw [highByte, BitVec.getLsbD_extractLsb']
  refine (congrArg _ (BitVec.getLsbD_append (x := hi) (y := lo) (i := 8 + i))).trans ?_
  rw [if_neg (by omega), show 8 + i - 8 = i by omega]
  simp [h]

@[simp] theorem lowByte_wordOfBytes (hi lo : Byte) : lowByte (wordOfBytes hi lo) = lo := by
  apply BitVec.eq_of_getLsbD_eq
  intro i h
  rw [lowByte, BitVec.getLsbD_extractLsb', Nat.zero_add]
  refine (congrArg _ (BitVec.getLsbD_append (x := hi) (y := lo) (i := i))).trans ?_
  rw [if_pos (by omega)]
  simp [h]

/-- A fetched word as a number: the byte at the lower address counts 256 (20_memory.md R35). -/
theorem toNat_wordOfBytes (hi lo : Byte) : (wordOfBytes hi lo).toNat = hi.toNat * 256 + lo.toNat := by
  have h1 : (highByte (wordOfBytes hi lo)).toNat = (wordOfBytes hi lo).toNat / 256 := by
    simp [highByte, Nat.shiftRight_eq_div_pow]
    omega
  have h2 : (lowByte (wordOfBytes hi lo)).toNat = (wordOfBytes hi lo).toNat % 256 := by
    simp [lowByte]
  rw [highByte_wordOfBytes] at h1
  rw [lowByte_wordOfBytes] at h2
  omega

/-! ## A word put together from its fields -/

theorem formatR_fields (w : Word) : formatR (nibble1 w) (fieldX w) (fieldY w) (fieldN w) = w := by
  apply BitVec.eq_of_getLsbD_eq
  intro i hi
  rw [getLsbD_formatR]
  simp only [nibble1, fieldX, fieldY, fieldN, BitVec.getLsbD_extractLsb']
  split
  · simp [*]
  split
  · rw [show 4 + (i - 4) = i by omega]
    simp [*]
  split
  · rw [show 8 + (i - 4 - 4) = i by omega]
    simp [*]
  · rw [show 12 + (i - 4 - 4 - 4) = i by omega, decide_eq_true (by omega : i - 4 - 4 - 4 < 4)]
    simp

theorem formatI_fields (w : Word) : formatI (nibble1 w) (fieldX w) (fieldNN w) = w := by
  apply BitVec.eq_of_getLsbD_eq
  intro i hi
  rw [getLsbD_formatI]
  simp only [nibble1, fieldX, fieldNN, BitVec.getLsbD_extractLsb']
  split
  · simp [*]
  split
  · rw [show 8 + (i - 8) = i by omega]
    simp [*]
  · rw [show 12 + (i - 8 - 4) = i by omega, decide_eq_true (by omega : i - 8 - 4 < 4)]
    simp

theorem formatA_fields (w : Word) : formatA (nibble1 w) (fieldNNN w) = w := by
  apply BitVec.eq_of_getLsbD_eq
  intro i hi
  rw [getLsbD_formatA]
  simp only [nibble1, fieldNNN, BitVec.getLsbD_extractLsb']
  split
  · simp [*]
  · rw [show 12 + (i - 12) = i by omega, decide_eq_true (by omega : i - 12 < 4)]
    simp

end Sys2Proof.Laws
end

