-- ==== Sys2Proof/Laws/Memory.lean ====
section
/-! SUPPORT. The laws of memory: every operation keeps the canonical form; a read after a write. -/

namespace Sys2Proof.Laws

open Sys2Proof.Machine

/-- A canonical memory from `lo'` upward is one from any lower address upward. -/
theorem wfFrom_mono {lo lo' : Nat} {m : Memory} (h : lo ≤ lo') (hm : Memory.wfFrom lo' m = true) :
    Memory.wfFrom lo m = true := by
  cases m with
  | nil => rfl
  | cons c m =>
    simp only [Memory.wfFrom, Bool.and_eq_true, decide_eq_true_eq] at hm ⊢
    exact ⟨⟨⟨by omega, hm.1.1.2⟩, hm.1.2⟩, hm.2⟩

/-- Below its first possible address a canonical memory lists nothing. -/
theorem read_below {lo : Nat} {m : Memory} (hm : Memory.wfFrom lo m = true) {a : Nat} (ha : a < lo) :
    m.read a = background a := by
  induction m generalizing lo with
  | nil => rfl
  | cons c m ih =>
    simp only [Memory.wfFrom, Bool.and_eq_true, decide_eq_true_eq] at hm
    rw [Memory.read, if_neg (by omega)]
    exact ih hm.2 (by omega)

/-- Above the address space a canonical memory lists nothing either. -/
theorem read_above {lo : Nat} {m : Memory} (hm : Memory.wfFrom lo m = true) {a : Nat} (ha : Config.memSize ≤ a) :
    m.read a = background a := by
  induction m generalizing lo with
  | nil => rfl
  | cons c m ih =>
    simp only [Memory.wfFrom, Bool.and_eq_true, decide_eq_true_eq] at hm
    rw [Memory.read, if_neg (by omega)]
    exact ih hm.2

/-- `consCell` puts one byte in front, whether it lists it or not. -/
theorem read_consCell {m : Memory} {a : Nat} (hm : Memory.wfFrom (a + 1) m = true) (b : Byte) (k : Nat) :
    (Memory.consCell a b m).read k = if k = a then b else m.read k := by
  unfold Memory.consCell
  by_cases hb : b = background a
  · rw [if_pos hb]
    by_cases hk : k = a
    · rw [if_pos hk, hk, read_below hm (by omega), hb]
    · rw [if_neg hk]
  · rw [if_neg hb, Memory.read]
    simp only [eq_comm]

theorem wfFrom_consCell {lo a : Nat} {m : Memory} (hm : Memory.wfFrom (a + 1) m = true) (hlo : lo ≤ a)
    (ha : a < Config.memSize) (b : Byte) : Memory.wfFrom lo (Memory.consCell a b m) = true := by
  unfold Memory.consCell
  by_cases hb : b = background a
  · rw [if_pos hb]
    exact wfFrom_mono (by omega) hm
  · rw [if_neg hb, Memory.wfFrom]
    simp [hlo, ha, hb, hm]

/-- A read after a write gives the byte written there, and elsewhere what it gave before (20_memory.md R36, R39). -/
theorem read_write_from {lo : Nat} {m : Memory} (hm : Memory.wfFrom lo m = true) (a : Nat) (b : Byte) (k : Nat) :
    (m.write a b).read k = if k = a then b else m.read k := by
  induction m generalizing lo with
  | nil => exact read_consCell (m := []) rfl b k
  | cons c m ih =>
    have hc := hm
    simp only [Memory.wfFrom, Bool.and_eq_true, decide_eq_true_eq] at hc
    unfold Memory.write
    by_cases h1 : a < c.1
    · rw [if_pos h1]
      refine read_consCell ?_ b k
      rw [Memory.wfFrom]
      simp only [Bool.and_eq_true, decide_eq_true_eq]
      exact ⟨⟨⟨by omega, hc.1.1.2⟩, hc.1.2⟩, hc.2⟩
    · rw [if_neg h1]
      by_cases h2 : a = c.1
      · rw [if_pos h2, read_consCell (h2 ▸ hc.2) b k, Memory.read]
        by_cases hk : k = a
        · rw [if_pos hk, if_pos hk]
        · rw [if_neg hk, if_neg hk, if_neg (by omega)]
      · rw [if_neg h2, Memory.read, Memory.read, ih hc.2]
        by_cases hk : c.1 = k
        · rw [if_pos hk, if_pos hk, if_neg (by omega)]
        · rw [if_neg hk, if_neg hk]

/-- A write inside the address space keeps the canonical form. -/
theorem wfFrom_write {lo : Nat} {m : Memory} (hm : Memory.wfFrom lo m = true) {a : Nat} (hlo : lo ≤ a)
    (ha : a < Config.memSize) (b : Byte) : Memory.wfFrom lo (m.write a b) = true := by
  induction m generalizing lo with
  | nil => exact wfFrom_consCell (m := []) rfl hlo ha b
  | cons c m ih =>
    have hc := hm
    simp only [Memory.wfFrom, Bool.and_eq_true, decide_eq_true_eq] at hc
    unfold Memory.write
    by_cases h1 : a < c.1
    · rw [if_pos h1]
      refine wfFrom_consCell ?_ hlo ha b
      rw [Memory.wfFrom]
      simp only [Bool.and_eq_true, decide_eq_true_eq]
      exact ⟨⟨⟨by omega, hc.1.1.2⟩, hc.1.2⟩, hc.2⟩
    · rw [if_neg h1]
      by_cases h2 : a = c.1
      · rw [if_pos h2]
        exact wfFrom_consCell (h2 ▸ hc.2) hlo ha b
      · rw [if_neg h2, Memory.wfFrom]
        simp only [Bool.and_eq_true, decide_eq_true_eq]
        exact ⟨hc.1, ih hc.2 (by omega)⟩

theorem wf_nil : Memory.wf [] = true := rfl

theorem wf_write {m : Memory} (hm : m.wf = true) {a : Nat} (ha : a < Config.memSize) (b : Byte) :
    (m.write a b).wf = true := wfFrom_write hm (Nat.zero_le a) ha b

theorem read_write {m : Memory} (hm : m.wf = true) (a : Nat) (b : Byte) (k : Nat) :
    (m.write a b).read k = if k = a then b else m.read k := read_write_from hm a b k

/-- Storing a block keeps the canonical form. -/
theorem wf_writeBytes {m : Memory} (hm : m.wf = true) (bs : List Byte) (a : Nat)
    (ha : a + bs.length ≤ Config.memSize) : (m.writeBytes a bs).wf = true := by
  induction bs generalizing m a with
  | nil => exact hm
  | cons b bs ih =>
    rw [List.length_cons] at ha
    exact ih (wf_write hm (by omega) b) (a + 1) (by omega)

/-- A read after a block store: byte `k - a` of the block inside it, the old byte outside it. -/
theorem read_writeBytes {m : Memory} (hm : m.wf = true) (bs : List Byte) (a : Nat)
    (ha : a + bs.length ≤ Config.memSize) (k : Nat) :
    (m.writeBytes a bs).read k = if a ≤ k then (bs[k - a]?).getD (m.read k) else m.read k := by
  induction bs generalizing m a with
  | nil => simp [Memory.writeBytes]
  | cons b bs ih =>
    rw [List.length_cons] at ha
    rw [Memory.writeBytes, ih (wf_write hm (by omega) b) (a + 1) (by omega), read_write hm]
    rcases Nat.lt_trichotomy k a with h | h | h
    · rw [if_neg (by omega), if_neg (by omega), if_neg (by omega)]
    · subst h
      rw [if_neg (by omega), if_pos rfl, if_pos (Nat.le_refl k), Nat.sub_self]
      rfl
    · obtain ⟨j, rfl⟩ : ∃ j, k = a + 1 + j := ⟨k - (a + 1), by omega⟩
      rw [if_pos (by omega), if_neg (by omega), if_pos (by omega), show a + 1 + j - a = j + 1 by omega,
        show a + 1 + j - (a + 1) = j by omega]
      rfl

/-- A block read gives one byte per address. -/
@[simp] theorem length_readBytes (m : Memory) (a n : Nat) : (m.readBytes a n).length = n := by
  induction n generalizing a with
  | zero => rfl
  | succ n ih => rw [Memory.readBytes, List.length_cons, ih]

/-- Byte `r` of a block read is the byte at `a + r`. -/
theorem getElem?_readBytes (m : Memory) (a n r : Nat) :
    (m.readBytes a n)[r]? = if r < n then some (m.read (a + r)) else none := by
  induction n generalizing a r with
  | zero => simp [Memory.readBytes]
  | succ n ih =>
    cases r with
    | zero => simp [Memory.readBytes]
    | succ r =>
      rw [Memory.readBytes, List.getElem?_cons_succ, ih]
      simp [Nat.add_assoc, Nat.add_comm 1 r]

/-- Two canonical memories that read the same everywhere are the same data. -/
theorem canonical_ext {lo : Nat} {m m' : Memory} (hm : Memory.wfFrom lo m = true) (hm' : Memory.wfFrom lo m' = true)
    (h : ∀ a, m.read a = m'.read a) : m = m' := by
  induction m generalizing lo m' with
  | nil =>
    cases m' with
    | nil => rfl
    | cons c m' =>
      simp only [Memory.wfFrom, Bool.and_eq_true, bne_iff_ne] at hm'
      exact absurd (by simpa [Memory.read] using (h c.1).symm) hm'.1.2
  | cons c m ih =>
    have hc := hm
    simp only [Memory.wfFrom, Bool.and_eq_true, decide_eq_true_eq, bne_iff_ne] at hc
    cases m' with
    | nil => exact absurd (by simpa [Memory.read] using h c.1) hc.1.2
    | cons c' m' =>
      have hc' := hm'
      simp only [Memory.wfFrom, Bool.and_eq_true, decide_eq_true_eq, bne_iff_ne] at hc'
      have key : c.1 = c'.1 := by
        rcases Nat.lt_trichotomy c.1 c'.1 with hlt | heq | hgt
        · have := h c.1
          rw [Memory.read, if_pos rfl, Memory.read, if_neg (by omega), read_below hc'.2 (by omega)] at this
          exact absurd this hc.1.2
        · exact heq
        · have := h c'.1
          rw [Memory.read, if_neg (by omega), read_below hc.2 (by omega), Memory.read, if_pos rfl] at this
          exact absurd this.symm hc'.1.2
      have hb : c.2 = c'.2 := by simpa [Memory.read, key] using h c.1
      have hrest : m = m' := by
        refine ih hc.2 (key ▸ hc'.2) (fun a => ?_)
        by_cases ha : a = c.1
        · rw [read_below hc.2 (by omega), read_below hc'.2 (by omega)]
        · have := h a
          rwa [Memory.read, if_neg (by omega), Memory.read, if_neg (by omega)] at this
      rw [hrest, Prod.ext key hb]

end Sys2Proof.Laws
end

