-- ==== Sys2Proof/Laws/State.lean ====
section
/-! SUPPORT. One lemma per field per update of the state, so that no proof unfolds a record update. -/

namespace Sys2Proof.Laws

open Sys2Proof.Machine

/-! ## `State.advance` -/

@[simp] theorem advance_v (s : State) : s.advance.v = s.v := rfl
@[simp] theorem advance_i (s : State) : s.advance.i = s.i := rfl
@[simp] theorem advance_pc (s : State) : s.advance.pc = s.pc + 2 := rfl
@[simp] theorem advance_stack (s : State) : s.advance.stack = s.stack := rfl
@[simp] theorem advance_dt (s : State) : s.advance.dt = s.dt := rfl
@[simp] theorem advance_st (s : State) : s.advance.st = s.st := rfl
@[simp] theorem advance_keys (s : State) : s.advance.keys = s.keys := rfl
@[simp] theorem advance_mem (s : State) : s.advance.mem = s.mem := rfl
@[simp] theorem advance_fb (s : State) : s.advance.fb = s.fb := rfl
@[simp] theorem advance_rng (s : State) : s.advance.rng = s.rng := rfl
@[simp] theorem advance_fault (s : State) : s.advance.fault = s.fault := rfl
@[simp] theorem advance_stackCap (s : State) : s.advance.stackCap = s.stackCap := rfl

/-! ## `State.setV` -/

@[simp] theorem setV_v (s : State) (x : Reg) (b : Byte) : (s.setV x b).v = s.v.set x.toNat b := rfl
@[simp] theorem setV_i (s : State) (x : Reg) (b : Byte) : (s.setV x b).i = s.i := rfl
@[simp] theorem setV_pc (s : State) (x : Reg) (b : Byte) : (s.setV x b).pc = s.pc := rfl
@[simp] theorem setV_stack (s : State) (x : Reg) (b : Byte) : (s.setV x b).stack = s.stack := rfl
@[simp] theorem setV_dt (s : State) (x : Reg) (b : Byte) : (s.setV x b).dt = s.dt := rfl
@[simp] theorem setV_st (s : State) (x : Reg) (b : Byte) : (s.setV x b).st = s.st := rfl
@[simp] theorem setV_keys (s : State) (x : Reg) (b : Byte) : (s.setV x b).keys = s.keys := rfl
@[simp] theorem setV_mem (s : State) (x : Reg) (b : Byte) : (s.setV x b).mem = s.mem := rfl
@[simp] theorem setV_fb (s : State) (x : Reg) (b : Byte) : (s.setV x b).fb = s.fb := rfl
@[simp] theorem setV_rng (s : State) (x : Reg) (b : Byte) : (s.setV x b).rng = s.rng := rfl
@[simp] theorem setV_fault (s : State) (x : Reg) (b : Byte) : (s.setV x b).fault = s.fault := rfl
@[simp] theorem setV_stackCap (s : State) (x : Reg) (b : Byte) : (s.setV x b).stackCap = s.stackCap := rfl

/-! ## `State.takeFault` -/

@[simp] theorem takeFault_v (s : State) (f : Fault) (w : Option Word) : (s.takeFault f w).v = s.v := rfl
@[simp] theorem takeFault_i (s : State) (f : Fault) (w : Option Word) : (s.takeFault f w).i = s.i := rfl
@[simp] theorem takeFault_pc (s : State) (f : Fault) (w : Option Word) : (s.takeFault f w).pc = s.pc := rfl
@[simp] theorem takeFault_stack (s : State) (f : Fault) (w : Option Word) : (s.takeFault f w).stack = s.stack := rfl
@[simp] theorem takeFault_dt (s : State) (f : Fault) (w : Option Word) : (s.takeFault f w).dt = s.dt := rfl
@[simp] theorem takeFault_st (s : State) (f : Fault) (w : Option Word) : (s.takeFault f w).st = s.st := rfl
@[simp] theorem takeFault_keys (s : State) (f : Fault) (w : Option Word) : (s.takeFault f w).keys = s.keys := rfl
@[simp] theorem takeFault_mem (s : State) (f : Fault) (w : Option Word) : (s.takeFault f w).mem = s.mem := rfl
@[simp] theorem takeFault_fb (s : State) (f : Fault) (w : Option Word) : (s.takeFault f w).fb = s.fb := rfl
@[simp] theorem takeFault_rng (s : State) (f : Fault) (w : Option Word) : (s.takeFault f w).rng = s.rng := rfl
@[simp] theorem takeFault_fault (s : State) (f : Fault) (w : Option Word) : (s.takeFault f w).fault = some ⟨f, w, s.pc⟩ := rfl
@[simp] theorem takeFault_stackCap (s : State) (f : Fault) (w : Option Word) : (s.takeFault f w).stackCap = s.stackCap := rfl

/-! ## `State.bumpI` -/

@[simp] theorem bumpI_v (s : State) (n : Nat) : (s.bumpI n).v = s.v := rfl
@[simp] theorem bumpI_i (s : State) (n : Nat) : (s.bumpI n).i = s.i + BitVec.ofNat 16 n := rfl
@[simp] theorem bumpI_pc (s : State) (n : Nat) : (s.bumpI n).pc = s.pc := rfl
@[simp] theorem bumpI_stack (s : State) (n : Nat) : (s.bumpI n).stack = s.stack := rfl
@[simp] theorem bumpI_dt (s : State) (n : Nat) : (s.bumpI n).dt = s.dt := rfl
@[simp] theorem bumpI_st (s : State) (n : Nat) : (s.bumpI n).st = s.st := rfl
@[simp] theorem bumpI_keys (s : State) (n : Nat) : (s.bumpI n).keys = s.keys := rfl
@[simp] theorem bumpI_mem (s : State) (n : Nat) : (s.bumpI n).mem = s.mem := rfl
@[simp] theorem bumpI_fb (s : State) (n : Nat) : (s.bumpI n).fb = s.fb := rfl
@[simp] theorem bumpI_rng (s : State) (n : Nat) : (s.bumpI n).rng = s.rng := rfl
@[simp] theorem bumpI_fault (s : State) (n : Nat) : (s.bumpI n).fault = s.fault := rfl
@[simp] theorem bumpI_stackCap (s : State) (n : Nat) : (s.bumpI n).stackCap = s.stackCap := rfl

/-! ## `State.setRegBlock` -/

@[simp] theorem setRegBlock_v (s : State) (bs : List Byte) : (s.setRegBlock bs).v = setRegsFrom s.v 0 bs := rfl
@[simp] theorem setRegBlock_i (s : State) (bs : List Byte) : (s.setRegBlock bs).i = s.i := rfl
@[simp] theorem setRegBlock_pc (s : State) (bs : List Byte) : (s.setRegBlock bs).pc = s.pc := rfl
@[simp] theorem setRegBlock_stack (s : State) (bs : List Byte) : (s.setRegBlock bs).stack = s.stack := rfl
@[simp] theorem setRegBlock_dt (s : State) (bs : List Byte) : (s.setRegBlock bs).dt = s.dt := rfl
@[simp] theorem setRegBlock_st (s : State) (bs : List Byte) : (s.setRegBlock bs).st = s.st := rfl
@[simp] theorem setRegBlock_keys (s : State) (bs : List Byte) : (s.setRegBlock bs).keys = s.keys := rfl
@[simp] theorem setRegBlock_mem (s : State) (bs : List Byte) : (s.setRegBlock bs).mem = s.mem := rfl
@[simp] theorem setRegBlock_fb (s : State) (bs : List Byte) : (s.setRegBlock bs).fb = s.fb := rfl
@[simp] theorem setRegBlock_rng (s : State) (bs : List Byte) : (s.setRegBlock bs).rng = s.rng := rfl
@[simp] theorem setRegBlock_fault (s : State) (bs : List Byte) : (s.setRegBlock bs).fault = s.fault := rfl
@[simp] theorem setRegBlock_stackCap (s : State) (bs : List Byte) : (s.setRegBlock bs).stackCap = s.stackCap := rfl

/-! ## `State.writeFlagged` -/

@[simp] theorem writeFlagged_v (s : State) (x : Reg) (f : Bool) (b : Byte) : (s.writeFlagged x f b).v = (s.v.set regF.toNat (flagByte f)).set x.toNat b := rfl
@[simp] theorem writeFlagged_i (s : State) (x : Reg) (f : Bool) (b : Byte) : (s.writeFlagged x f b).i = s.i := rfl
@[simp] theorem writeFlagged_pc (s : State) (x : Reg) (f : Bool) (b : Byte) : (s.writeFlagged x f b).pc = s.pc := rfl
@[simp] theorem writeFlagged_stack (s : State) (x : Reg) (f : Bool) (b : Byte) : (s.writeFlagged x f b).stack = s.stack := rfl
@[simp] theorem writeFlagged_dt (s : State) (x : Reg) (f : Bool) (b : Byte) : (s.writeFlagged x f b).dt = s.dt := rfl
@[simp] theorem writeFlagged_st (s : State) (x : Reg) (f : Bool) (b : Byte) : (s.writeFlagged x f b).st = s.st := rfl
@[simp] theorem writeFlagged_keys (s : State) (x : Reg) (f : Bool) (b : Byte) : (s.writeFlagged x f b).keys = s.keys := rfl
@[simp] theorem writeFlagged_mem (s : State) (x : Reg) (f : Bool) (b : Byte) : (s.writeFlagged x f b).mem = s.mem := rfl
@[simp] theorem writeFlagged_fb (s : State) (x : Reg) (f : Bool) (b : Byte) : (s.writeFlagged x f b).fb = s.fb := rfl
@[simp] theorem writeFlagged_rng (s : State) (x : Reg) (f : Bool) (b : Byte) : (s.writeFlagged x f b).rng = s.rng := rfl
@[simp] theorem writeFlagged_fault (s : State) (x : Reg) (f : Bool) (b : Byte) : (s.writeFlagged x f b).fault = s.fault := rfl
@[simp] theorem writeFlagged_stackCap (s : State) (x : Reg) (f : Bool) (b : Byte) : (s.writeFlagged x f b).stackCap = s.stackCap := rfl

/-! ## `State.drawByte` -/

@[simp] theorem drawByte_v (s : State) : s.drawByte.2.v = s.v := rfl
@[simp] theorem drawByte_i (s : State) : s.drawByte.2.i = s.i := rfl
@[simp] theorem drawByte_pc (s : State) : s.drawByte.2.pc = s.pc := rfl
@[simp] theorem drawByte_stack (s : State) : s.drawByte.2.stack = s.stack := rfl
@[simp] theorem drawByte_dt (s : State) : s.drawByte.2.dt = s.dt := rfl
@[simp] theorem drawByte_st (s : State) : s.drawByte.2.st = s.st := rfl
@[simp] theorem drawByte_keys (s : State) : s.drawByte.2.keys = s.keys := rfl
@[simp] theorem drawByte_mem (s : State) : s.drawByte.2.mem = s.mem := rfl
@[simp] theorem drawByte_fb (s : State) : s.drawByte.2.fb = s.fb := rfl
@[simp] theorem drawByte_rng (s : State) : s.drawByte.2.rng = ⟨s.rng.seeding, s.rng.drawn + 1⟩ := rfl
@[simp] theorem drawByte_fault (s : State) : s.drawByte.2.fault = s.fault := rfl
@[simp] theorem drawByte_stackCap (s : State) : s.drawByte.2.stackCap = s.stackCap := rfl

/-! ## `State.skipIf`: only PC can change -/

@[simp] theorem skipIf_v (s : State) (c : Bool) : (s.skipIf c).v = s.v := by cases c <;> rfl
@[simp] theorem skipIf_i (s : State) (c : Bool) : (s.skipIf c).i = s.i := by cases c <;> rfl
@[simp] theorem skipIf_pc (s : State) (c : Bool) : (s.skipIf c).pc = if c then s.pc + 2 else s.pc := by cases c <;> rfl
@[simp] theorem skipIf_stack (s : State) (c : Bool) : (s.skipIf c).stack = s.stack := by cases c <;> rfl
@[simp] theorem skipIf_dt (s : State) (c : Bool) : (s.skipIf c).dt = s.dt := by cases c <;> rfl
@[simp] theorem skipIf_st (s : State) (c : Bool) : (s.skipIf c).st = s.st := by cases c <;> rfl
@[simp] theorem skipIf_keys (s : State) (c : Bool) : (s.skipIf c).keys = s.keys := by cases c <;> rfl
@[simp] theorem skipIf_mem (s : State) (c : Bool) : (s.skipIf c).mem = s.mem := by cases c <;> rfl
@[simp] theorem skipIf_fb (s : State) (c : Bool) : (s.skipIf c).fb = s.fb := by cases c <;> rfl
@[simp] theorem skipIf_rng (s : State) (c : Bool) : (s.skipIf c).rng = s.rng := by cases c <;> rfl
@[simp] theorem skipIf_fault (s : State) (c : Bool) : (s.skipIf c).fault = s.fault := by cases c <;> rfl
@[simp] theorem skipIf_stackCap (s : State) (c : Bool) : (s.skipIf c).stackCap = s.stackCap := by cases c <;> rfl

/-! ## `State.launch`, the state RESET leaves -/

@[simp] theorem launch_v (m : Memory) (k : Nat) (cap : Option Nat) : (State.launch m k cap).v = Vector.replicate 16 0 := rfl
@[simp] theorem launch_i (m : Memory) (k : Nat) (cap : Option Nat) : (State.launch m k cap).i = 0 := rfl
@[simp] theorem launch_pc (m : Memory) (k : Nat) (cap : Option Nat) : (State.launch m k cap).pc = 0x200 := rfl
@[simp] theorem launch_stack (m : Memory) (k : Nat) (cap : Option Nat) : (State.launch m k cap).stack = [0] := rfl
@[simp] theorem launch_dt (m : Memory) (k : Nat) (cap : Option Nat) : (State.launch m k cap).dt = 0 := rfl
@[simp] theorem launch_st (m : Memory) (k : Nat) (cap : Option Nat) : (State.launch m k cap).st = 0 := rfl
@[simp] theorem launch_keys (m : Memory) (k : Nat) (cap : Option Nat) : (State.launch m k cap).keys = Vector.replicate 16 false := rfl
@[simp] theorem launch_mem (m : Memory) (k : Nat) (cap : Option Nat) : (State.launch m k cap).mem = m := rfl
@[simp] theorem launch_fb (m : Memory) (k : Nat) (cap : Option Nat) : (State.launch m k cap).fb = Framebuffer.off := rfl
@[simp] theorem launch_rng (m : Memory) (k : Nat) (cap : Option Nat) : (State.launch m k cap).rng = ⟨k, 0⟩ := rfl
@[simp] theorem launch_fault (m : Memory) (k : Nat) (cap : Option Nat) : (State.launch m k cap).fault = none := rfl
@[simp] theorem launch_stackCap (m : Memory) (k : Nat) (cap : Option Nat) : (State.launch m k cap).stackCap = cap := rfl

/-! ## Registers read after each update -/

@[simp] theorem advance_V (s : State) (r : Reg) : s.advance.V r = s.V r := rfl
@[simp] theorem takeFault_V (s : State) (f : Fault) (w : Option Word) (r : Reg) : (s.takeFault f w).V r = s.V r := rfl
@[simp] theorem bumpI_V (s : State) (n : Nat) (r : Reg) : (s.bumpI n).V r = s.V r := rfl
@[simp] theorem drawByte_V (s : State) (r : Reg) : s.drawByte.2.V r = s.V r := rfl
@[simp] theorem skipIf_V (s : State) (c : Bool) (r : Reg) : (s.skipIf c).V r = s.V r := by cases c <;> rfl

/-- Writing a register changes that register and no other (10_state.md R10). -/
@[simp] theorem setV_V (s : State) (x : Reg) (b : Byte) (r : Reg) :
    (s.setV x b).V r = if r = x then b else s.V r := by
  unfold State.V State.setV
  rw [Vector.getElem_set]
  by_cases h : r = x
  · simp [h]
  · rw [if_neg (fun e => h (BitVec.eq_of_toNat_eq e.symm)), if_neg h]

/-- A flag instruction's two writes: the result in `V[X]`, the flag in VF unless `X` is VF (41_alu.md R80). -/
@[simp] theorem writeFlagged_V (s : State) (x : Reg) (f : Bool) (b : Byte) (r : Reg) :
    (s.writeFlagged x f b).V r = if r = x then b else if r = regF then flagByte f else s.V r := by
  simp [State.writeFlagged]

@[simp] theorem launch_V (m : Memory) (k : Nat) (cap : Option Nat) (r : Reg) : (State.launch m k cap).V r = 0 := by
  simp [State.V]

@[simp] theorem launch_key (m : Memory) (k : Nat) (cap : Option Nat) (n : Nibble) :
    (State.launch m k cap).key n = false := by
  simp [State.key]

end Sys2Proof.Laws
end

