-- ==== Sys2Proof/Laws/Ops.lean ====
section
/-! SUPPORT. For each shared operation, once, everything it can do. -/

namespace Sys2Proof.Laws

open Sys2Proof.Machine

/-! ## Range check, memory access, fetch -/

theorem checkRange_ok {a n : Nat} (h : n = 0 ∨ a + n ≤ Config.memSize) : checkRange a n = .ok () := by
  unfold checkRange
  rw [if_neg (by omega)]

theorem checkRange_error {a n : Nat} (hn : 0 < n) (h : Config.memSize < a + n) :
    checkRange a n = .error (.memoryOutOfRange (max a Config.memSize)) := by
  unfold checkRange
  rw [if_pos ⟨hn, h⟩]

/-- The two outcomes of the range check. -/
theorem checkRange_cases (a n : Nat) :
    (checkRange a n = .ok () ∧ (n = 0 ∨ a + n ≤ Config.memSize)) ∨
      (checkRange a n = .error (.memoryOutOfRange (max a Config.memSize)) ∧ 0 < n ∧ Config.memSize < a + n) := by
  by_cases h : n = 0 ∨ a + n ≤ Config.memSize
  · exact .inl ⟨checkRange_ok h, h⟩
  · exact .inr ⟨checkRange_error (by omega) (by omega), by omega, by omega⟩

theorem memRead_ok {s : State} {a n : Nat} (h : n = 0 ∨ a + n ≤ Config.memSize) :
    s.memRead a n = .ok (s.mem.readBytes a n) := by
  unfold State.memRead
  rw [checkRange_ok h]

theorem memRead_error {s : State} {a n : Nat} (hn : 0 < n) (h : Config.memSize < a + n) :
    s.memRead a n = .error (.memoryOutOfRange (max a Config.memSize)) := by
  unfold State.memRead
  rw [checkRange_error hn h]

theorem memWrite_ok {s : State} {a : Nat} {bs : List Byte} (h : bs.length = 0 ∨ a + bs.length ≤ Config.memSize) :
    s.memWrite a bs = .ok { s with mem := s.mem.writeBytes a bs } := by
  unfold State.memWrite
  rw [checkRange_ok h]

theorem memWrite_error {s : State} {a : Nat} {bs : List Byte} (hn : 0 < bs.length)
    (h : Config.memSize < a + bs.length) :
    s.memWrite a bs = .error (.memoryOutOfRange (max a Config.memSize)) := by
  unfold State.memWrite
  rw [checkRange_error hn h]

theorem fetch_ok {s : State} (h : s.pc.toNat + 2 ≤ Config.memSize) :
    s.fetch = .ok (wordOfBytes (s.mem.read s.pc.toNat) (s.mem.read (s.pc.toNat + 1))) := by
  unfold State.fetch
  rw [checkRange_ok (.inr h)]

theorem fetch_error {s : State} (h : Config.memSize < s.pc.toNat + 2) :
    s.fetch = .error (.memoryOutOfRange (max s.pc.toNat Config.memSize)) := by
  unfold State.fetch
  rw [checkRange_error (by omega) h]

/-- A word can be fetched exactly when both its bytes are in memory. -/
theorem fetch_eq_ok_iff {s : State} {w : Word} :
    s.fetch = .ok w ↔ s.pc.toNat + 2 ≤ Config.memSize ∧
      w = wordOfBytes (s.mem.read s.pc.toNat) (s.mem.read (s.pc.toNat + 1)) := by
  by_cases h : s.pc.toNat + 2 ≤ Config.memSize
  · rw [fetch_ok h]
    simp [h, eq_comm]
  · rw [fetch_error (by omega)]
    simp [h]

/-- Fetch reads nothing but memory and PC. -/
theorem fetch_congr {s t : State} (hpc : t.pc = s.pc) (hm : t.mem = s.mem) : t.fetch = s.fetch := by
  unfold State.fetch
  rw [hpc, hm]

@[simp] theorem takeFault_fetch (s : State) (f : Fault) (w : Option Word) : (s.takeFault f w).fetch = s.fetch :=
  fetch_congr rfl rfl

/-! ## Taking a fault -/

/-- What `commit` can answer: the result, or the state the instruction began in with its fault recorded. -/
theorem commit_eq_next {i : Instr} {s t : State} {e : Except Fault State} (h : commit i s e = .next t) :
    e = .ok t ∨ ∃ f, e = .error f ∧ t = s.takeFault f (some (encode i)) := by
  cases e with
  | ok u =>
    cases h
    exact .inl rfl
  | error f =>
    cases h
    exact .inr ⟨f, rfl, rfl⟩

@[simp] theorem commit_ok (i : Instr) (s t : State) : commit i s (.ok t) = .next t := rfl

@[simp] theorem commit_error (i : Instr) (s : State) (f : Fault) :
    commit i s (.error f) = .next (s.takeFault f (some (encode i))) := rfl

@[simp] theorem takeFault_halted (s : State) (f : Fault) (w : Option Word) : (s.takeFault f w).halted = true := rfl

theorem halted_eq_false {s : State} : s.halted = false ↔ s.fault = none := by
  simp [State.halted]

/-! ## Call stack -/

theorem push_ok {s : State} {w : Word} (h : s.stackCap ≠ some s.stack.length) :
    s.push w = .ok { s with stack := w :: s.stack } := by
  unfold State.push
  rw [if_neg h]

theorem push_error {s : State} {w : Word} (h : s.stackCap = some s.stack.length) :
    s.push w = .error .stackOverflow := by
  unfold State.push
  rw [if_pos h]

theorem pop_nil {s : State} (h : s.stack = []) : s.pop = .error .stackUnderflow := by
  unfold State.pop
  rw [h]

theorem pop_cons {s : State} {w : Word} {ws : List Word} (h : s.stack = w :: ws) :
    s.pop = .ok (w, { s with stack := ws }) := by
  unfold State.pop
  rw [h]

/-! ## Keypad -/

theorem keyAt_ok {s : State} {b : Byte} (h : b.toNat ≤ 15) : s.keyAt b = .ok (s.key (b.setWidth 4)) := by
  unfold State.keyAt
  rw [if_neg (by omega)]

theorem keyAt_error {s : State} {b : Byte} (h : 15 < b.toNat) : s.keyAt b = .error (.keyIndexOutOfRange b) := by
  unfold State.keyAt
  rw [if_pos h]

/-- No key is pressed exactly when the search finds none. -/
theorem lowestKey_eq_none {s : State} : s.lowestKey = none ↔ ∀ k, s.key k = false := by
  unfold State.lowestKey State.key
  rw [List.findIdx?_eq_none_iff]
  constructor
  · intro h k
    have := h s.keys[k.toNat] (by simp)
    simpa using this
  · intro h b hb
    obtain ⟨k, hk, rfl⟩ := List.getElem_of_mem hb
    have hk16 : k < 16 := by simpa using hk
    have := h (BitVec.ofNat 4 k)
    have e : (BitVec.ofNat 4 k).toNat = k := by simp; omega
    simpa [e] using this

/-- The search finds the smallest pressed key. -/
theorem lowestKey_eq_some {s : State} {k : Nat} (h : s.lowestKey = some k) :
    k < 16 ∧ s.key (BitVec.ofNat 4 k) = true ∧ ∀ j : Nibble, j.toNat < k → s.key j = false := by
  unfold State.lowestKey at h
  rw [List.findIdx?_eq_some_iff_getElem] at h
  obtain ⟨hk, hon, hoff⟩ := h
  have hk16 : k < 16 := by simpa using hk
  have e : (BitVec.ofNat 4 k).toNat = k := by simp; omega
  refine ⟨hk16, by simpa [State.key, e] using hon, fun j hj => ?_⟩
  simpa [State.key] using hoff j.toNat hj

/-! ## Framebuffer -/

@[simp] theorem pixel_off (x y : Nat) : Framebuffer.off.pixel x y = false := by
  unfold Framebuffer.pixel Framebuffer.off
  split <;> simp

/-- A toggle changes the pixel it names and no other. -/
theorem pixel_toggle (fb : Framebuffer) (x y x' y' : Nat) (h : x < 64 ∧ y < 32) :
    (fb.toggle x y).pixel x' y' = if x' = x ∧ y' = y then !fb.pixel x y else fb.pixel x' y' := by
  unfold Framebuffer.toggle Framebuffer.pixel
  rw [dif_pos h, dif_pos h]
  by_cases h' : x' < 64 ∧ y' < 32
  · rw [dif_pos h', dif_pos h']
    by_cases hy : y' = y
    · subst hy
      by_cases hx : x' = x
      · subst hx
        simp
      · simp [hx, Ne.symm hx]
    · simp [hy, Vector.getElem_set_ne _ _ (Ne.symm hy)]
  · rw [dif_neg h', dif_neg h', if_neg (by rintro ⟨rfl, rfl⟩; exact h' h)]

/-- All the toggles of a list of distinct positions: each named pixel changes once, no other does, and the collision
flag says whether one of them was on before. -/
theorem toggleAll_ok {ps : List (Nat × Nat)} {fb : Framebuffer} {c : Bool} (hd : ps.Nodup)
    (hin : ∀ p ∈ ps, p.1 < Config.fbWidth ∧ p.2 < Config.fbHeight) :
    ∃ fb', Framebuffer.toggleAll ps fb c = .ok (fb', c || ps.any (fun p => fb.pixel p.1 p.2)) ∧
      ∀ x y, fb'.pixel x y = (fb.pixel x y ^^ decide ((x, y) ∈ ps)) := by
  induction ps generalizing fb c with
  | nil => exact ⟨fb, by simp [Framebuffer.toggleAll], by simp⟩
  | cons p ps ih =>
    obtain ⟨px, py⟩ := p
    have hp := hin (px, py) (List.mem_cons_self ..)
    obtain ⟨hnot, hd'⟩ := List.nodup_cons.mp hd
    obtain ⟨fb', heq, hpix⟩ := ih (fb := fb.toggle px py) (c := c || fb.pixel px py) hd'
      (fun q hq => hin q (List.mem_cons_of_mem _ hq))
    refine ⟨fb', ?_, fun x y => ?_⟩
    · have hany : ps.any (fun p => (fb.toggle px py).pixel p.1 p.2) = ps.any (fun p => fb.pixel p.1 p.2) := by
        rw [Bool.eq_iff_iff]
        simp only [List.any_eq_true]
        refine exists_congr (fun q => and_congr_right (fun hq => ?_))
        rw [pixel_toggle _ _ _ _ _ hp, if_neg]
        rintro ⟨hx, hy⟩
        exact hnot ((Prod.ext hx hy : q = (px, py)) ▸ hq)
      unfold Framebuffer.toggleAll
      rw [if_pos hp, heq, hany, List.any_cons, Bool.or_assoc]
    · rw [hpix, pixel_toggle _ _ _ _ _ hp]
      by_cases h : x = px ∧ y = py
      · obtain ⟨rfl, rfl⟩ := h
        simp [hnot]
      · have : (x, y) ≠ (px, py) := by simpa using h
        simp [h, this]

/-- The first position off the screen raises the fault, whatever was toggled before it. -/
theorem toggleAll_error {ps qs : List (Nat × Nat)} {x y : Nat} {fb : Framebuffer} {c : Bool}
    (hin : ∀ p ∈ ps, p.1 < Config.fbWidth ∧ p.2 < Config.fbHeight)
    (hout : ¬(x < Config.fbWidth ∧ y < Config.fbHeight)) :
    Framebuffer.toggleAll (ps ++ (x, y) :: qs) fb c = .error (.framebufferOutOfRange x y) := by
  induction ps generalizing fb c with
  | nil =>
    rw [List.nil_append, Framebuffer.toggleAll, if_neg hout]
  | cons p ps ih =>
    rw [List.cons_append, Framebuffer.toggleAll, if_pos (hin p (List.mem_cons_self ..))]
    exact ih (fun q hq => hin q (List.mem_cons_of_mem _ hq))

/-! ## Sprites -/

/-- The columns of one sprite byte: `x + k` for each `k` below 8 whose bit `7 - k` is set. -/
theorem mem_rowColumns {x c : Nat} {b : Byte} : c ∈ rowColumns x b ↔ ∃ k, k < 8 ∧ b.getLsbD (7 - k) = true ∧ c = x + k := by
  simp only [rowColumns, List.mem_map, List.mem_filter, List.mem_range]
  constructor
  · rintro ⟨k, ⟨h1, h2⟩, h3⟩
    exact ⟨k, h1, h2, h3.symm⟩
  · rintro ⟨k, h1, h2, h3⟩
    exact ⟨k, ⟨h1, h2⟩, h3.symm⟩

/-- The positions of a sprite: (`x + k`, `y + r`) for each set bit `7 - k` of byte `r`. -/
theorem mem_spritePixels {x y px py : Nat} {bs : List Byte} :
    (px, py) ∈ spritePixels x y bs ↔
      ∃ r b, bs[r]? = some b ∧ py = y + r ∧ ∃ k, k < 8 ∧ b.getLsbD (7 - k) = true ∧ px = x + k := by
  induction bs generalizing y with
  | nil => simp [spritePixels]
  | cons b bs ih =>
    rw [spritePixels, List.mem_append, ih]
    constructor
    · rintro (h | ⟨r, b', h1, h2, h3⟩)
      · simp only [List.mem_map, Prod.mk.injEq] at h
        obtain ⟨c, hc, rfl, rfl⟩ := h
        exact ⟨0, b, rfl, rfl, mem_rowColumns.mp hc⟩
      · exact ⟨r + 1, b', by simpa using h1, by omega, h3⟩
    · rintro ⟨r, b', h1, h2, h3⟩
      cases r with
      | zero =>
        simp only [List.getElem?_cons_zero, Option.some.injEq] at h1
        subst h1
        simp only [List.mem_map, Prod.mk.injEq]
        exact .inl ⟨px, mem_rowColumns.mpr h3, rfl, h2.symm⟩
      | succ r => exact .inr ⟨r, b', by simpa using h1, by omega, h3⟩

/-- No position comes twice. -/
theorem nodup_spritePixels (x y : Nat) (bs : List Byte) : (spritePixels x y bs).Nodup := by
  induction bs generalizing y with
  | nil => simp [spritePixels]
  | cons b bs ih =>
    rw [spritePixels, List.nodup_append]
    refine ⟨?_, ih _, ?_⟩
    · refine List.Nodup.map (fun a b h => by simpa using h) ?_
      exact List.Nodup.map (fun a b h => by simpa using h) (List.Nodup.filter _ List.nodup_range)
    · rintro ⟨px, py⟩ hp q hq rfl
      simp only [List.mem_map, Prod.mk.injEq] at hp
      obtain ⟨_, _, _, rfl⟩ := hp
      obtain ⟨r, b, _, h, _⟩ := mem_spritePixels.mp hq
      omega

/-- The positions in front of a given one belong to earlier rows, or to earlier columns of its row. -/
theorem spritePixels_split (x y : Nat) (bs : List Byte) (r c : Nat) (b : Byte) (hb : bs[r]? = some b) (hc : c < 8)
    (hs : b.getLsbD (7 - c) = true) :
    ∃ ps qs, spritePixels x y bs = ps ++ (x + c, y + r) :: qs ∧
      ∀ p ∈ ps, ∃ r' c' b', bs[r']? = some b' ∧ c' < 8 ∧ b'.getLsbD (7 - c') = true ∧ p = (x + c', y + r') ∧
        (r' < r ∨ (r' = r ∧ c' < c)) := by
  induction bs generalizing y r with
  | nil => simp at hb
  | cons a bs ih =>
    cases r with
    | succ r =>
      obtain ⟨ps, qs, h1, h2⟩ := ih (y + 1) r (by simpa using hb)
      refine ⟨(rowColumns x a).map (fun c => (c, y)) ++ ps, qs, ?_, fun p hp => ?_⟩
      · rw [spritePixels, h1, show y + 1 + r = y + (r + 1) by omega, List.append_assoc]
      · rcases List.mem_append.mp hp with hp | hp
        · simp only [List.mem_map] at hp
          obtain ⟨c', hc', rfl⟩ := hp
          obtain ⟨k, hk, hk', rfl⟩ := mem_rowColumns.mp hc'
          exact ⟨0, k, a, rfl, hk, hk', rfl, .inl (by omega)⟩
        · obtain ⟨r', c', b', e1, e2, e3, e4, e5⟩ := h2 p hp
          exact ⟨r' + 1, c', b', by simpa using e1, e2, e3, by rw [e4]; congr 1; omega, by omega⟩
    | zero =>
      simp only [List.getElem?_cons_zero, Option.some.injEq] at hb
      subst hb
      have cut : List.range 8 = List.range c ++ c :: (List.range (7 - c)).map (fun k => c + 1 + k) := by
        interval_cases c <;> decide
      refine ⟨((List.range c).filter (fun c => a.getLsbD (7 - c))).map (fun c => (x + c, y)), ?_, ?_, fun p hp => ?_⟩
      rotate_left
      · rw [spritePixels, rowColumns, cut, List.filter_append, List.filter_cons]
        simp only [hs, if_true, List.map_append, List.map_cons, List.map_map, List.append_assoc, List.cons_append]
        rfl
      · simp only [List.mem_map, List.mem_filter, List.mem_range] at hp
        obtain ⟨k, ⟨hk, hk'⟩, rfl⟩ := hp
        exact ⟨0, k, a, rfl, by omega, hk', rfl, .inr ⟨rfl, hk⟩⟩

/-! ## Register blocks -/

/-- Setting a run of registers: register `j` of the run gets value `j - k`, the others keep theirs. -/
theorem getElem_setRegsFrom (bs : List Byte) (v : Vector Byte 16) (k j : Nat) (hj : j < 16) :
    (setRegsFrom v k bs)[j] = if k ≤ j then (bs[j - k]?).getD v[j] else v[j] := by
  induction bs generalizing v k with
  | nil => simp [setRegsFrom]
  | cons b bs ih =>
    rw [setRegsFrom, ih]
    rcases Nat.lt_trichotomy j k with h | h | h
    · rw [if_neg (by omega), if_neg (by omega), Vector.getElem_setIfInBounds_ne _ (by omega)]
    · subst h
      rw [if_neg (by omega), if_pos (Nat.le_refl j), Nat.sub_self, Vector.getElem_setIfInBounds_self]
      rfl
    · obtain ⟨d, rfl⟩ : ∃ d, j = k + 1 + d := ⟨j - (k + 1), by omega⟩
      rw [if_pos (by omega), if_pos (by omega), show k + 1 + d - k = d + 1 by omega,
        show k + 1 + d - (k + 1) = d by omega, Vector.getElem_setIfInBounds_ne _ (by omega)]
      rfl

/-- Register `r` after a block of values is loaded from V0 upward (42_index_memory.md R105). -/
theorem setRegBlock_V (s : State) (bs : List Byte) (r : Reg) :
    (s.setRegBlock bs).V r = (bs[r.toNat]?).getD (s.V r) := by
  unfold State.setRegBlock State.V
  rw [getElem_setRegsFrom _ _ _ _ r.isLt, if_pos (Nat.zero_le _), Nat.sub_zero]

@[simp] theorem length_regBlock (s : State) (x : Reg) : (s.regBlock x).length = blockLength x := by
  have := x.isLt
  simp [State.regBlock, blockLength]
  omega

/-- Value `r` of the block V0 to Vx is register `r` (R104). -/
theorem getElem?_regBlock (s : State) (x r : Reg) (h : r ≤ x) : (s.regBlock x)[r.toNat]? = some (s.V r) := by
  have hr := r.isLt
  have hle : r.toNat ≤ x.toNat := h
  have hlt : r.toNat < x.toNat + 1 := by omega
  simp [State.regBlock, blockLength, State.V, List.getElem?_take_of_lt hlt]

@[simp] theorem length_decimalDigits (b : Byte) : (decimalDigits b).length = 3 := rfl

end Sys2Proof.Laws
end

