-- ==== Sys2Proof/Laws/PerInstr.lean ====
section
/-! SUPPORT. Family EncodesRow: the word of every instruction matches the mask and match of its own row of the opcode
table (30_encoding.md R62), one lemma per constructor. -/

namespace Sys2Proof.Laws

/-- The encoder's word for `i` is selected by `i`'s row of the opcode table, and that row stands in the table. -/
def EncodesRow.Statement (i : Instr) : Prop := i.row ∈ opcodeTable ∧ i.row.selects (encode i) = true

theorem mask_formatA (k : Nibble) (a : Addr) : formatA k a &&& 0xF000#16 = formatA k 0 := by
  apply BitVec.eq_of_getLsbD_eq
  intro i hi
  rw [BitVec.getLsbD_and, getLsbD_formatA, getLsbD_formatA]
  interval_cases i <;> simp

theorem mask_formatI (k : Nibble) (x : Reg) (nn : Byte) : formatI k x nn &&& 0xF000#16 = formatI k 0 0 := by
  apply BitVec.eq_of_getLsbD_eq
  intro i hi
  rw [BitVec.getLsbD_and, getLsbD_formatI, getLsbD_formatI]
  interval_cases i <;> simp

theorem mask_formatS (k : Nibble) (x : Reg) (nn : Byte) : formatI k x nn &&& 0xF0FF#16 = formatI k 0 nn := by
  apply BitVec.eq_of_getLsbD_eq
  intro i hi
  rw [BitVec.getLsbD_and, getLsbD_formatI, getLsbD_formatI]
  interval_cases i <;> simp

theorem mask_formatR (k : Nibble) (x y : Reg) (n : Nibble) : formatR k x y n &&& 0xF00F#16 = formatR k 0 0 n := by
  apply BitVec.eq_of_getLsbD_eq
  intro i hi
  rw [BitVec.getLsbD_and, getLsbD_formatR, getLsbD_formatR]
  interval_cases i <;> simp

theorem mask_formatD (k : Nibble) (x y : Reg) (n : Nibble) : formatR k x y n &&& 0xF000#16 = formatR k 0 0 0 := by
  apply BitVec.eq_of_getLsbD_eq
  intro i hi
  rw [BitVec.getLsbD_and, getLsbD_formatR, getLsbD_formatR]
  interval_cases i <;> simp

/-- A row's place in the table and its selection of a word, from the masked word. -/
theorem selects_of (name : String) (mask bits : Word) {w m : Word} (h : w &&& mask = m)
    (hr : Row.mk name mask bits ∈ opcodeTable := by decide) (hm : m = bits := by decide) :
    Row.mk name mask bits ∈ opcodeTable ∧ (Row.mk name mask bits).selects w = true :=
  ⟨hr, by rw [Row.selects, h, hm, beq_self_eq_true]⟩

theorem EncodesRow.cls : EncodesRow.Statement .cls := selects_of "CLS" 0xFFFF#16 0x00E0#16 (m := 0x00E0#16) (by decide)

theorem EncodesRow.ret : EncodesRow.Statement .ret := selects_of "RET" 0xFFFF#16 0x00EE#16 (m := 0x00EE#16) (by decide)

theorem EncodesRow.jp (nnn : Addr) : EncodesRow.Statement (.jp nnn) :=
  selects_of "JP" 0xF000#16 0x1000#16 (mask_formatA 0x1#4 nnn)

theorem EncodesRow.call (nnn : Addr) : EncodesRow.Statement (.call nnn) :=
  selects_of "CALL" 0xF000#16 0x2000#16 (mask_formatA 0x2#4 nnn)

theorem EncodesRow.sei (x : Reg) (nn : Byte) : EncodesRow.Statement (.sei x nn) :=
  selects_of "SEI" 0xF000#16 0x3000#16 (mask_formatI 0x3#4 x nn)

theorem EncodesRow.snei (x : Reg) (nn : Byte) : EncodesRow.Statement (.snei x nn) :=
  selects_of "SNEI" 0xF000#16 0x4000#16 (mask_formatI 0x4#4 x nn)

theorem EncodesRow.ser (x y : Reg) : EncodesRow.Statement (.ser x y) :=
  selects_of "SER" 0xF00F#16 0x5000#16 (mask_formatR 0x5#4 x y 0x0#4)

theorem EncodesRow.ldi (x : Reg) (nn : Byte) : EncodesRow.Statement (.ldi x nn) :=
  selects_of "LDI" 0xF000#16 0x6000#16 (mask_formatI 0x6#4 x nn)

theorem EncodesRow.addi (x : Reg) (nn : Byte) : EncodesRow.Statement (.addi x nn) :=
  selects_of "ADDI" 0xF000#16 0x7000#16 (mask_formatI 0x7#4 x nn)

theorem EncodesRow.mov (x y : Reg) : EncodesRow.Statement (.mov x y) :=
  selects_of "MOV" 0xF00F#16 0x8000#16 (mask_formatR 0x8#4 x y 0x0#4)

theorem EncodesRow.or (x y : Reg) : EncodesRow.Statement (.or x y) :=
  selects_of "OR" 0xF00F#16 0x8001#16 (mask_formatR 0x8#4 x y 0x1#4)

theorem EncodesRow.and (x y : Reg) : EncodesRow.Statement (.and x y) :=
  selects_of "AND" 0xF00F#16 0x8002#16 (mask_formatR 0x8#4 x y 0x2#4)

theorem EncodesRow.xor (x y : Reg) : EncodesRow.Statement (.xor x y) :=
  selects_of "XOR" 0xF00F#16 0x8003#16 (mask_formatR 0x8#4 x y 0x3#4)

theorem EncodesRow.add (x y : Reg) : EncodesRow.Statement (.add x y) :=
  selects_of "ADD" 0xF00F#16 0x8004#16 (mask_formatR 0x8#4 x y 0x4#4)

theorem EncodesRow.sub (x y : Reg) : EncodesRow.Statement (.sub x y) :=
  selects_of "SUB" 0xF00F#16 0x8005#16 (mask_formatR 0x8#4 x y 0x5#4)

theorem EncodesRow.shr (x y : Reg) : EncodesRow.Statement (.shr x y) :=
  selects_of "SHR" 0xF00F#16 0x8006#16 (mask_formatR 0x8#4 x y 0x6#4)

theorem EncodesRow.subn (x y : Reg) : EncodesRow.Statement (.subn x y) :=
  selects_of "SUBN" 0xF00F#16 0x8007#16 (mask_formatR 0x8#4 x y 0x7#4)

theorem EncodesRow.shl (x y : Reg) : EncodesRow.Statement (.shl x y) :=
  selects_of "SHL" 0xF00F#16 0x800E#16 (mask_formatR 0x8#4 x y 0xE#4)

theorem EncodesRow.sner (x y : Reg) : EncodesRow.Statement (.sner x y) :=
  selects_of "SNER" 0xF00F#16 0x9000#16 (mask_formatR 0x9#4 x y 0x0#4)

theorem EncodesRow.lda (nnn : Addr) : EncodesRow.Statement (.lda nnn) :=
  selects_of "LDA" 0xF000#16 0xA000#16 (mask_formatA 0xA#4 nnn)

theorem EncodesRow.jpv0 (nnn : Addr) : EncodesRow.Statement (.jpv0 nnn) :=
  selects_of "JPV0" 0xF000#16 0xB000#16 (mask_formatA 0xB#4 nnn)

theorem EncodesRow.rnd (x : Reg) (nn : Byte) : EncodesRow.Statement (.rnd x nn) :=
  selects_of "RND" 0xF000#16 0xC000#16 (mask_formatI 0xC#4 x nn)

theorem EncodesRow.drw (x y : Reg) (n : Nibble) : EncodesRow.Statement (.drw x y n) :=
  selects_of "DRW" 0xF000#16 0xD000#16 (mask_formatD 0xD#4 x y n)

theorem EncodesRow.skp (x : Reg) : EncodesRow.Statement (.skp x) :=
  selects_of "SKP" 0xF0FF#16 0xE09E#16 (mask_formatS 0xE#4 x 0x9E#8)

theorem EncodesRow.sknp (x : Reg) : EncodesRow.Statement (.sknp x) :=
  selects_of "SKNP" 0xF0FF#16 0xE0A1#16 (mask_formatS 0xE#4 x 0xA1#8)

theorem EncodesRow.getdt (x : Reg) : EncodesRow.Statement (.getdt x) :=
  selects_of "GETDT" 0xF0FF#16 0xF007#16 (mask_formatS 0xF#4 x 0x07#8)

theorem EncodesRow.waitk (x : Reg) : EncodesRow.Statement (.waitk x) :=
  selects_of "WAITK" 0xF0FF#16 0xF00A#16 (mask_formatS 0xF#4 x 0x0A#8)

theorem EncodesRow.setdt (x : Reg) : EncodesRow.Statement (.setdt x) :=
  selects_of "SETDT" 0xF0FF#16 0xF015#16 (mask_formatS 0xF#4 x 0x15#8)

theorem EncodesRow.setst (x : Reg) : EncodesRow.Statement (.setst x) :=
  selects_of "SETST" 0xF0FF#16 0xF018#16 (mask_formatS 0xF#4 x 0x18#8)

theorem EncodesRow.adda (x : Reg) : EncodesRow.Statement (.adda x) :=
  selects_of "ADDA" 0xF0FF#16 0xF01E#16 (mask_formatS 0xF#4 x 0x1E#8)

theorem EncodesRow.font (x : Reg) : EncodesRow.Statement (.font x) :=
  selects_of "FONT" 0xF0FF#16 0xF029#16 (mask_formatS 0xF#4 x 0x29#8)

theorem EncodesRow.bcd (x : Reg) : EncodesRow.Statement (.bcd x) :=
  selects_of "BCD" 0xF0FF#16 0xF033#16 (mask_formatS 0xF#4 x 0x33#8)

theorem EncodesRow.stm (x : Reg) : EncodesRow.Statement (.stm x) :=
  selects_of "STM" 0xF0FF#16 0xF055#16 (mask_formatS 0xF#4 x 0x55#8)

theorem EncodesRow.ldm (x : Reg) : EncodesRow.Statement (.ldm x) :=
  selects_of "LDM" 0xF0FF#16 0xF065#16 (mask_formatS 0xF#4 x 0x65#8)

end Sys2Proof.Laws
end

