-- ==== Sys2Proof/Laws/Step.lean ====
section
/-! SUPPORT. Everything one STEP can do, said once. -/

namespace Sys2Proof.Laws

open Sys2Proof.Machine

/-- A STEP that answers `t` was halted, took a fetch fault, took `DecodeFailure`, or executed the decoded instruction. -/
theorem step_cases {s t : State} (h : step s = .next t) :
    (s.fault ≠ none ∧ t = s) ∨
    (s.fault = none ∧ ∃ f, s.fetch = .error f ∧ t = s.takeFault f none) ∨
    (s.fault = none ∧ ∃ w, s.fetch = .ok w ∧
      ((∃ e, decodeWord w = .error e ∧ t = s.takeFault .decodeFailure (some w)) ∨
        ∃ i, decodeWord w = .ok i ∧ exec i s = .next t)) := by
  unfold step stepCycle at h
  split at h
  · rename_i hh
    cases h
    exact .inl ⟨by simpa [State.halted, Option.isSome_iff_ne_none] using hh, rfl⟩
  · rename_i hh
    have hn : s.fault = none := by simpa [State.halted] using hh
    cases hf : s.fetch with
    | error f =>
      rw [hf] at h
      cases h
      exact .inr (.inl ⟨hn, f, rfl, rfl⟩)
    | ok w =>
      rw [hf] at h
      simp only at h
      cases hd : decodeWord w with
      | error e =>
        rw [hd] at h
        cases h
        exact .inr (.inr ⟨hn, w, rfl, .inl ⟨e, hd, rfl⟩⟩)
      | ok i =>
        rw [hd] at h
        exact .inr (.inr ⟨hn, w, rfl, .inr ⟨i, hd, h⟩⟩)

end Sys2Proof.Laws
end

