-- ==== Sys2Proof/Tests/Slice0.lean ====
section
/-! SUPPORT. The row's own tests: ill-formed terms refused, words written out bit by bit, single steps with the results of
spec/95_test_vectors.md (named by their ids there), and for every statement a state that meets its hypotheses. -/

namespace Sys2Proof.Tests

open Sys2Proof.Machine Sys2Proof.Safety Sys2Proof.Laws

/-! ## Helpers -/

/-- The state after reset with one word at 0x200. -/
def placed (w : Nat) : State := State.reset.withFetchWord 16 w

/-- One byte of memory set. -/
def poke (s : State) (a : Nat) (b : Byte) : State := { s with mem := s.mem.write a b }

/-- What one STEP leads to, seen through `f`. -/
def seen {α : Type} (f : State → α) (s : State) : Option α :=
  match step s with
  | .next t => some (f t)
  | _ => none

/-- The bytes at an address and the two after it. -/
def three (s : State) (a : Nat) : Byte × Byte × Byte := (s.mem.read a, s.mem.read (a + 1), s.mem.read (a + 2))

/-- The pixels of row `y` from column `x` to `x + 3`. -/
def four (s : State) (x y : Nat) : List Bool := (List.range 4).map (fun k => s.fb.pixel (x + k) y)

/-- The state of vectors G-1 to G-4: DXYN of one byte at column 2, row 1, from 0x300. -/
def drawF0 : State := poke { ((placed 0xD011).setV 0 2).setV 1 1 with i := 0x300 } 0x300 0xF0

/-- A sprite byte 0xFF at column `c`, row 31. -/
def drawFF (c : Byte) : State := poke { ((placed 0xD011).setV 0 c).setV 1 31 with i := 0x300 } 0x300 0xFF

/-! ## Ill-formed terms are refused -/

theorem test_words_of_the_six_groups_are_refused :
    legalWord 0x0000 = false ∧ legalWord 0x5121 = false ∧ legalWord 0x8128 = false ∧ legalWord 0x9ABF = false ∧
    legalWord 0xE000 = false ∧ legalWord 0xF166 = false ∧ legalWord 0x10E0 = true := by decide

theorem test_long_rom_is_refused :
    romFits (List.replicate 3585 0) = false ∧ romFits (List.replicate 3584 0) = true :=
  ⟨decide_eq_false (by rw [List.length_replicate]; decide), decide_eq_true (by rw [List.length_replicate]; decide)⟩

theorem test_zero_stack_cap_is_refused : stackCapLegal (some 0) = false ∧ stackCapLegal (some 1) = true := by decide

theorem test_short_bytes_are_no_instruction : decode [0x12] = .error .truncated := rfl

/-! ## Decoding of every constructor, from the patterns of 30_encoding.md R62 -/

theorem test_decode_control :
    decodeWord 0b0000000011101110 = .ok .ret ∧ decodeWord 0b0001101010111100 = .ok (.jp 0xABC) ∧
    decodeWord 0b0010001100000000 = .ok (.call 0x300) ∧ decodeWord 0b1011111111111111 = .ok (.jpv0 0xFFF) ∧
    decodeWord 0b0011101001000010 = .ok (.sei 0xA 0x42) ∧ decodeWord 0b0100101001000011 = .ok (.snei 0xA 0x43) ∧
    decodeWord 0b0101000100100000 = .ok (.ser 1 2) ∧ decodeWord 0b1001000100100000 = .ok (.sner 1 2) :=
  ⟨rfl, rfl, rfl, rfl, rfl, rfl, rfl, rfl⟩

theorem test_decode_alu :
    decodeWord 0b0110101001111111 = .ok (.ldi 0xA 0x7F) ∧ decodeWord 0b0111101000000001 = .ok (.addi 0xA 1) ∧
    decodeWord 0b1000000100100000 = .ok (.mov 1 2) ∧ decodeWord 0b1000000100100001 = .ok (.or 1 2) ∧
    decodeWord 0b1000000100100010 = .ok (.and 1 2) ∧ decodeWord 0b1000000100100011 = .ok (.xor 1 2) ∧
    decodeWord 0b1000101010110100 = .ok (.add 0xA 0xB) ∧ decodeWord 0b1000000100100101 = .ok (.sub 1 2) ∧
    decodeWord 0b1000000100100110 = .ok (.shr 1 2) ∧ decodeWord 0b1000000100100111 = .ok (.subn 1 2) ∧
    decodeWord 0b1000000100101110 = .ok (.shl 1 2) ∧ decodeWord 0b1100000100001111 = .ok (.rnd 1 0x0F) :=
  ⟨rfl, rfl, rfl, rfl, rfl, rfl, rfl, rfl, rfl, rfl, rfl, rfl⟩

theorem test_decode_index :
    decodeWord 0b1010001011110000 = .ok (.lda 0x2F0) ∧ decodeWord 0b1111001000011110 = .ok (.adda 2) ∧
    decodeWord 0b1111001100101001 = .ok (.font 3) ∧ decodeWord 0b1111000000110011 = .ok (.bcd 0) ∧
    decodeWord 0b1111000101010101 = .ok (.stm 1) ∧ decodeWord 0b1111000101100101 = .ok (.ldm 1) :=
  ⟨rfl, rfl, rfl, rfl, rfl, rfl⟩

theorem test_decode_graphics :
    decodeWord 0b0000000011100000 = .ok .cls ∧ decodeWord 0b1101000000010010 = .ok (.drw 0 1 2) := ⟨rfl, rfl⟩

theorem test_decode_keypad_timers :
    decodeWord 0b1110010110011110 = .ok (.skp 5) ∧ decodeWord 0b1110010110100001 = .ok (.sknp 5) ∧
    decodeWord 0b1111001100001010 = .ok (.waitk 3) ∧ decodeWord 0b1111000100000111 = .ok (.getdt 1) ∧
    decodeWord 0b1111000000010101 = .ok (.setdt 0) ∧ decodeWord 0b1111000000011000 = .ok (.setst 0) :=
  ⟨rfl, rfl, rfl, rfl, rfl, rfl⟩

/-- S11, the field views of 0xD012 and 0x8AB4. -/
theorem test_fields :
    nibble1 0xD012 = 0xD ∧ fieldX 0xD012 = 0 ∧ fieldY 0xD012 = 1 ∧ fieldN 0xD012 = 2 ∧ fieldNNN 0xD012 = 0x012 ∧
    fieldNN 0xD012 = 0x12 ∧ fieldX 0x8AB4 = 0xA ∧ fieldY 0x8AB4 = 0xB ∧ fieldNN 0x8AB4 = 0xB4 := by decide

theorem test_encode_is_big_endian : encodeBytes (.add 0xA 0xB) = [0x8A, 0xB4] := by decide

theorem test_table_word : decodeTableWord 16 0xD012 = some (.drw 0 1 2) ∧ decodeTableWord 16 0x0123 = none := by decide

/-! ## One STEP: decode and fetch -/

/-- D-1 -/
theorem test_illegal_word_faults :
    seen (fun t => (t.pc, t.fault)) State.reset = some (0x200, some ⟨.decodeFailure, some 0x0000, 0x200⟩) := by decide

/-- D-12 -/
theorem test_fetch_at_last_byte_faults :
    seen (fun t => (t.pc, t.fault)) { State.reset with pc := 0xFFF } =
      some (0xFFF, some ⟨.memoryOutOfRange 0x1000, none, 0xFFF⟩) := by decide

/-- The fetch of D-14: above the last byte the fault reports PC itself. -/
theorem test_fetch_above_memory_faults :
    seen (fun t => t.fault) { State.reset with pc := 0x1002 } =
      some (some ⟨.memoryOutOfRange 0x1002, none, 0x1002⟩) := by decide

/-- D-16, an odd PC. -/
theorem test_odd_pc :
    seen (fun t => (t.pc, t.V 0xA)) (poke (poke { State.reset with pc := 0x203 } 0x203 0x6A) 0x204 0x55) =
      some (0x205, 0x55) := by decide

/-! ## One STEP: control flow -/

/-- C-JP-1 -/
theorem test_jp : seen (fun t => (t.pc, t.stack)) (placed 0x1ABC) = some (0xABC, [0]) := by decide

/-- C-CALL-1 -/
theorem test_call : seen (fun t => (t.pc, t.stack)) (placed 0x2ABC) = some (0xABC, [0x202, 0]) := by decide

/-- C-CALL-2 -/
theorem test_call_overflow :
    seen (fun t => (t.pc, t.stack, t.fault)) { placed 0x2ABC with stackCap := some 1 } =
      some (0x200, [0], some ⟨.stackOverflow, some 0x2ABC, 0x200⟩) := by decide

/-- C-RET-1 -/
theorem test_ret_sentinel : seen (fun t => (t.pc, t.stack, t.fault)) (placed 0x00EE) = some (0, [], none) := by decide

/-- C-RET-2 -/
theorem test_ret_underflow :
    seen (fun t => (t.pc, t.fault)) { placed 0x00EE with stack := [] } =
      some (0x200, some ⟨.stackUnderflow, some 0x00EE, 0x200⟩) := by decide

/-- C-JPV0-2 -/
theorem test_jpv0_is_not_reduced : seen (·.pc) ((placed 0xBFFF).setV 0 0xFF) = some 0x10FE := by decide

/-- C-SEI-1, C-SEI-2 -/
theorem test_sei :
    seen (·.pc) ((placed 0x3A42).setV 0xA 0x42) = some 0x204 ∧
    seen (·.pc) ((placed 0x3A42).setV 0xA 0x43) = some 0x202 := by decide

/-- C-SNEI-1, C-SNEI-2 -/
theorem test_snei :
    seen (·.pc) ((placed 0x4A42).setV 0xA 0x42) = some 0x202 ∧
    seen (·.pc) ((placed 0x4A42).setV 0xA 0x43) = some 0x204 := by decide

/-- C-SER-1, C-SER-2 -/
theorem test_ser :
    seen (·.pc) (((placed 0x5120).setV 1 7).setV 2 7) = some 0x204 ∧
    seen (·.pc) (((placed 0x5120).setV 1 7).setV 2 8) = some 0x202 := by decide

/-- C-SNER-1, C-SNER-2 -/
theorem test_sner :
    seen (·.pc) (((placed 0x9120).setV 1 7).setV 2 7) = some 0x202 ∧
    seen (·.pc) (((placed 0x9120).setV 1 7).setV 2 8) = some 0x204 := by decide

/-! ## One STEP: arithmetic and logic -/

/-- V1 and VF after a STEP that began with the given V1, V2 and VF. -/
def alu (w : Nat) (a b f : Byte) : Option (Byte × Byte) :=
  seen (fun t => (t.V 1, t.V regF)) ((((placed w).setV 1 a).setV 2 b).setV regF f)

/-- A-LDI-1 -/
theorem test_ldi : seen (fun t => (t.pc, t.V 0xA)) (placed 0x6A7F) = some (0x202, 0x7F) := by decide

/-- A-ADDI-1, A-ADDI-4 -/
theorem test_addi_sets_no_flag :
    seen (fun t => (t.V 0xA, t.V regF)) ((placed 0x7A01).setV 0xA 0xFF) = some (0, 0) ∧
    seen (fun t => t.V regF) ((placed 0x7F10).setV regF 0xF8) = some 0x08 := by decide

/-- A-MOV-1, A-MOV-4 -/
theorem test_mov : alu 0x8120 0x11 0x22 1 = some (0x22, 1) ∧ alu 0x81F0 0 0 7 = some (7, 7) := by decide

/-- A-OR-1 -/
theorem test_or : alu 0x8121 0xF0 0x0F 1 = some (0xFF, 1) := by decide

/-- A-AND-1 -/
theorem test_and : alu 0x8122 0xF0 0x3C 1 = some (0x30, 1) := by decide

/-- A-XOR-1 -/
theorem test_xor : alu 0x8123 0xF0 0x3C 1 = some (0xCC, 1) := by decide

/-- A-ADD-1, A-ADD-2, A-ADD-7 -/
theorem test_add :
    alu 0x8124 0xFF 0x01 0 = some (0, 1) ∧ alu 0x8124 0xFF 0 1 = some (0xFF, 0) ∧ alu 0x81F4 0xFF 0 1 = some (0, 1) := by
  decide

/-- A-ADD-5, A-ADD-8: the result wins over the flag when X is F. -/
theorem test_add_into_vf :
    (alu 0x8F24 0 0x20 0xF0).map (·.2) = some 0x10 ∧ (alu 0x8FF4 0 0 0x90).map (·.2) = some 0x20 := by decide

/-- A-SUB-3, A-SUB-4 -/
theorem test_sub : alu 0x8125 7 7 0 = some (0, 1) ∧ alu 0x8125 0 1 1 = some (0xFF, 0) := by decide

/-- A-SHR-5, A-SHR-4 -/
theorem test_shr : alu 0x8126 4 0xFF 1 = some (2, 0) ∧ (alu 0x8F06 0 0 3).map (·.2) = some 1 := by decide

/-- A-SUBN-2, A-SUBN-5 -/
theorem test_subn : alu 0x8127 7 5 1 = some (0xFE, 0) ∧ alu 0x81F7 2 0 1 = some (0xFF, 0) := by decide

/-- A-SHL-1, A-SHL-5 -/
theorem test_shl : alu 0x812E 0x81 0 0 = some (2, 1) ∧ (alu 0x8F0E 0 0 0xC0).map (·.2) = some 0x80 := by decide

/-- A-RND-3, the only CXNN with a determined result; one byte is drawn all the same. -/
theorem test_rnd_with_zero_mask :
    ∃ t, exec (.rnd 3 0) (State.reset.setV 3 9) = .next t ∧ t.V 3 = 0 ∧ t.rng = ⟨0, 1⟩ :=
  ⟨_, rfl, by rw [setV_V, if_pos rfl]; exact BitVec.and_zero, rfl⟩

/-! ## One STEP: address register and memory -/

/-- M-LDA-1 -/
theorem test_lda : seen (fun t => (t.i, t.pc)) (placed 0xA2F0) = some (0x2F0, 0x202) := by decide

/-- M-ADDA-1, and the sum modulo 65536 of decision D14. -/
theorem test_adda :
    seen (fun t => (t.i, t.V regF)) { (placed 0xF21E).setV 2 0x10 with i := 0x300 } = some (0x310, 0) ∧
    seen (fun t => (t.i, t.V regF)) { (placed 0xF21E).setV 2 0x02 with i := 0xFFFF } = some (0x0001, 0) := by decide

/-- 42_index_memory.md R102: no masking, FF gives 4FB. -/
theorem test_font : seen (·.i) ((placed 0xF329).setV 3 0xFF) = some 0x4FB := by decide

/-- M-BCD-7 -/
theorem test_bcd :
    seen (fun t => (three t 0xFFD, t.i)) { (placed 0xF033).setV 0 199 with i := 0xFFD } =
      some ((1, 9, 9), 0xFFD) := by decide

/-- M-BCD-8 -/
theorem test_bcd_faults_whole :
    seen (fun t => (t.mem.read 0xFFE, t.mem.read 0xFFF, t.fault)) { (placed 0xF033).setV 0 199 with i := 0xFFE } =
      some (0, 0, some ⟨.memoryOutOfRange 0x1000, some 0xF033, 0x200⟩) := by decide

/-- M-STM-4 -/
theorem test_stm :
    seen (fun t => (t.mem.read 0xFFE, t.mem.read 0xFFF, t.i)) { ((placed 0xF155).setV 0 1).setV 1 2 with i := 0xFFE } =
      some (1, 2, 0x1000) := by decide

/-- M-STM-5 -/
theorem test_stm_faults_whole :
    seen (fun t => (t.mem.read 0xFFF, t.i, t.fault)) { (placed 0xF155).setV 0 1 with i := 0xFFF } =
      some (0, 0xFFF, some ⟨.memoryOutOfRange 0x1000, some 0xF155, 0x200⟩) := by decide

/-- M-LDM-1 -/
theorem test_ldm :
    seen (fun t => (t.V 0, t.V 1, t.V 2, t.V 3, t.i))
      { poke (poke (poke (poke ((placed 0xF265).setV 3 9) 0x400 1) 0x401 2) 0x402 3) 0x403 4 with i := 0x400 } =
      some (1, 2, 3, 9, 0x403) := by decide

/-- M-LDM-4, on the font of GK1. -/
theorem test_ldm_reads_font : seen (fun t => (t.V 0, t.V 5, t.V 0xF, t.i)) (placed 0xFF65) = some (0xF0, 0x20, 0xF0, 0x10) := by
  decide

/-! ## One STEP: graphics -/

/-- G-CLS -/
theorem test_cls :
    seen (fun t => (t.fb.pixel 4 3, t.V regF, t.pc))
      { (placed 0x00E0).setV regF 1 with fb := Framebuffer.off.toggle 4 3 } = some (false, 1, 0x202) := by decide

/-- G-4: pixel (3,1) already on. -/
theorem test_drw_collision :
    seen (fun t => (four t 2 1, t.V regF)) { drawF0 with fb := Framebuffer.off.toggle 3 1 } =
      some ([true, false, true, true], 1) := by decide

/-- G-3: bit 7 leftmost, the first byte the top row. -/
theorem test_drw_order :
    seen (fun t => (t.fb.pixel 0 0, t.fb.pixel 7 1, t.fb.pixel 7 0, t.V regF))
      (poke (poke { placed 0xD012 with i := 0x300 } 0x300 0x80) 0x301 0x01) = some (true, true, false, 0) := by decide

/-- G-6: off the screen, nothing drawn, VF as it was. -/
theorem test_drw_edge :
    seen (fun t => (t.fb.pixel 57 31, t.V regF, t.fault)) ((drawFF 57).setV regF 5) =
      some (false, 5, some ⟨.framebufferOutOfRange 64 31, some 0xD011, 0x200⟩) := by decide

/-- G-14: no sprite byte, no read, no fault. -/
theorem test_drw_zero_rows :
    seen (fun t => (t.V regF, t.fault)) { (placed 0xD010).setV regF 1 with i := 0xFFFF } = some (0, none) := by decide

/-- G-18: the memory range is tested before the pixels. -/
theorem test_drw_memory_first :
    seen (fun t => t.fault) (poke { (placed 0xD012).setV 0 70 with i := 0xFFF } 0xFFF 0xFF) =
      some (some ⟨.memoryOutOfRange 0x1000, some 0xD012, 0x200⟩) := by decide

/-- G-19: VF as the column is read before it is written. -/
theorem test_drw_column_in_vf :
    seen (fun t => (t.fb.pixel 5 2, t.V regF))
      (poke { ((placed 0xDF11).setV regF 5).setV 1 2 with i := 0x300 } 0x300 0x80) = some (true, 0) := by decide

/-! ## One STEP: keypad and timers -/

/-- K-SKP-1, K-SKP-2 -/
theorem test_skp :
    seen (·.pc) (((placed 0xE59E).setV 5 10).keySet 10 true) = some 0x204 ∧
    seen (·.pc) ((placed 0xE59E).setV 5 10) = some 0x202 := by decide

/-- K-SKP-6 -/
theorem test_skp_is_not_masked :
    seen (fun t => (t.pc, t.fault)) (((placed 0xE59E).setV 5 0x10).keySet 0 true) =
      some (0x200, some ⟨.keyIndexOutOfRange 0x10, some 0xE59E, 0x200⟩) := by decide

/-- K-SKNP-1, K-SKNP-2 -/
theorem test_sknp :
    seen (·.pc) ((placed 0xE5A1).setV 5 10) = some 0x204 ∧
    seen (·.pc) (((placed 0xE5A1).setV 5 10).keySet 10 true) = some 0x202 := by decide

/-- K-WAIT-1, K-WAIT-4 -/
theorem test_waitk :
    seen (fun t => (t.pc, t.V 3)) ((placed 0xF30A).setV 3 0x99) = some (0x200, 0x99) ∧
    seen (fun t => (t.pc, t.V 3)) ((placed 0xF30A).keySet 15 true) = some (0x202, 0x0F) := by decide

/-- The first STEP of K-WAIT-3: keys 3 and 7 down, the lowest wins. -/
theorem test_waitk_lowest :
    seen (fun t => t.V 3) (((placed 0xF30A).keySet 7 true).keySet 3 true) = some 3 := by decide

/-- T-1 -/
theorem test_getdt : seen (fun t => (t.V 1, t.dt)) { placed 0xF107 with dt := 0x2A } = some (0x2A, 0x2A) := by decide

/-- The store of T-3 into DT. -/
theorem test_setdt : seen (fun t => (t.dt, t.st)) ((placed 0xF115).setV 1 5) = some (5, 0) := by decide

/-- The store of T-3 into ST. -/
theorem test_setst : seen (fun t => (t.dt, t.st)) ((placed 0xF218).setV 2 2) = some (0, 2) := by decide

/-! ## Host events -/

/-- T-3, T-6: one TICK, independent clamps. -/
theorem test_tick :
    ({ State.reset with dt := 3, st := 0 }.tick.dt, { State.reset with dt := 3, st := 0 }.tick.st) = ((2 : Byte), (0 : Byte)) := by
  decide

/-- K-EV-1 -/
theorem test_key_set :
    (State.reset.keySet 4 true).key 4 = true ∧ (State.reset.keySet 4 true).key 5 = false ∧
    ((State.reset.keySet 4 true).keySet 4 false).key 4 = false := by decide

/-- R-2 -/
theorem test_load_rom :
    (State.reset.loadRom [0x12, 0x00]).2 = true ∧ three (State.reset.loadRom [0x12, 0x00]).1 0x200 = (0x12, 0x00, 0x00) := by
  decide

/-- R-4 -/
theorem test_load_rom_too_long : State.reset.loadRom (List.replicate 3585 0) = (State.reset, false) := by
  unfold State.loadRom
  rw [test_long_rom_is_refused.1]
  rfl

/-! ## What each statement assumes can be met, clause by clause -/

/-- DecoderFollowsOpcodeTable, EncodeOfDecodedWord -/
theorem witness_word_selects_row :
    ⟨"ADD", 0xF00F, 0x8004⟩ ∈ opcodeTable ∧ (⟨"ADD", 0xF00F, 0x8004⟩ : Row).selects 0x8AB4 = true ∧
    decodeWord 0x8AB4 = .ok (.add 0xA 0xB) := by decide

/-- StepRunsDecodedInstruction: halted; PC at the last byte; PC at 0xFFE, the last place a word can be fetched from. -/
theorem witness_step_clauses :
    (State.reset.takeFault .decodeFailure (some 0)).fault ≠ none ∧
    ({ State.reset with pc := 0xFFF } : State).fault = none ∧ 0xFFE < ({ State.reset with pc := 0xFFF } : State).pc.toNat ∧
    decodeWord 0x0000 = .error .bucket0 ∧
    (0x6001 : Word).toNat =
      ((poke (poke { State.reset with pc := 0xFFE } 0xFFE 0x60) 0xFFF 0x01).mem.read 0xFFE).toNat * 256 +
        ((poke (poke { State.reset with pc := 0xFFE } 0xFFE 0x60) 0xFFF 0x01).mem.read 0xFFF).toNat ∧
    seen (fun t => (t.pc, t.V 0)) (poke (poke { State.reset with pc := 0xFFE } 0xFFE 0x60) 0xFFF 0x01) =
      some (0x1000, 1) := by decide

/-- StepKeepsRunInvariant: a state that runs, with memory listed, and one that is halted, with a fault record. -/
theorem witness_invariant :
    (Inv (State.launch [(0x200, 0x2A), (0x201, 0xBC)] 0 none) ∧
      ∃ t, step (State.launch [(0x200, 0x2A), (0x201, 0xBC)] 0 none) = .next t ∧ t.stack = [0x202, 0]) ∧
    (Inv (State.reset.takeFault .decodeFailure (some 0)) ∧
      ∃ t, step (State.reset.takeFault .decodeFailure (some 0)) = .next t) := by
  refine ⟨⟨⟨by decide, by decide, by simp [State.launch], fun _ h => (nomatch h), fun _ h => (nomatch h)⟩, _, rfl, by decide⟩,
    ⟨⟨by decide, by decide, by simp [State.reset, State.launch], fun _ h => (nomatch h), fun r h => ?_⟩, _, rfl⟩⟩
  cases h
  exact ⟨rfl, rfl⟩

/-- EveryEventSequenceKeepsInvariant: a boot and every kind of event but STEP, with the smallest `STACK_CAP`. -/
theorem witness_event_sequence :
    stackCapLegal (some 1) = true ∧
    ∃ p, Platform.run
      [.powerOn ⟨Vector.replicate 80 1, Vector.replicate 4016 2⟩, .reset, .loadRom [0x12, 0x00], .tick, .keySet 7 true,
        .fbSnapshot, .reset] (.off (some 1)) = .next p := ⟨rfl, _, rfl⟩

/-- The same with a STEP on a booted core. -/
theorem witness_step_event : ∃ p, Platform.run [.step, .tick] (.running (placed 0x1200)) = .next p := ⟨_, rfl⟩

/-- FaultingStepChangesOnlyTheRecord: an illegal word, and a fetch fault. -/
theorem witness_faulting_step :
    State.reset.fault = none ∧ (∃ t, step State.reset = .next t ∧ t.fault = some ⟨.decodeFailure, some 0, 0x200⟩) ∧
    ∃ t, step { State.reset with pc := 0xFFF } = .next t ∧ t.fault = some ⟨.memoryOutOfRange 0x1000, none, 0xFFF⟩ :=
  ⟨rfl, ⟨_, rfl, by decide⟩, ⟨_, rfl, by decide⟩⟩

/-- OnlyListedInstructionsRaiseEachFault -/
theorem witness_executing_fault :
    ∃ t, exec .ret { State.reset with stack := [] } = .next t ∧ t.fault = some ⟨.stackUnderflow, some 0x00EE, 0x200⟩ :=
  ⟨_, rfl, rfl⟩

/-- SentinelIsPoppedOnceThenUnderflow, ReturnPopsPc, PopRemovesTopEntry: the sentinel alone, and the stack empty. -/
theorem witness_stacks : State.reset.stack = [0] ∧ ({ State.reset with stack := [] } : State).stack = [] := ⟨rfl, rfl⟩

/-- BootReachesLaunchState, LoadRomCopiesOrFails: the longest ROM that fits and the shortest that does not. -/
theorem witness_rom_lengths :
    (List.replicate 0xE00 (1 : Byte)).length ≤ 0xE00 ∧ 0xE00 < (List.replicate 0xE01 (1 : Byte)).length ∧
    State.reset.mem.wf = true ∧ State.reset.fault = none :=
  ⟨by rw [List.length_replicate], by rw [List.length_replicate]; decide, rfl, rfl⟩

/-- BootReachesLaunchState: every clause on addresses at both ends of its range. -/
theorem witness_boot_addresses :
    (0 < 0x50 ∧ 0x4F < 0x50) ∧ (0x50 ≤ 0x50 ∧ 0x50 < 0x200) ∧ (0x200 + [(0x12 : Byte), 0].length ≤ 0x202 ∧ 0xFFF < 0x1000) := by
  decide

/-- EventsBeforeBootAreRefused -/
theorem witness_early_event :
    (∀ img, Event.step ≠ .powerOn img) ∧ Event.step ≠ .reset ∧ (∀ bytes, Event.step ≠ .loadRom bytes) :=
  ⟨fun _ h => (nomatch h), fun h => (nomatch h), fun _ h => (nomatch h)⟩

/-- HaltedCoreIgnoresEvents, TickCountsBothTimersDown, KeySetWritesOneKey, TimersReachZeroAndStayThere: halted and not. -/
theorem witness_halted_and_not :
    (State.reset.takeFault .stackOverflow (some 0x2ABC)).fault ≠ none ∧ ({ State.reset with dt := 0xFF } : State).fault = none := by
  decide

/-- ReadsAreBoundsChecked, WriteChangesOneByte: the last byte and the first address above it; PC at 0xFFE, 0xFFF, 0x1000. -/
theorem witness_bounds :
    State.reset.memRead 0xFFF 1 = .ok [0] ∧
    State.reset.memRead 0x1000 1 = .error (.memoryOutOfRange 0x1000) ∧
    ({ State.reset with pc := 0xFFE } : State).fetch = .ok 0 ∧
    ({ State.reset with pc := 0xFFF } : State).fetch = .error (.memoryOutOfRange 0x1000) ∧
    ({ State.reset with pc := 0x1000 } : State).fetch = .error (.memoryOutOfRange 0x1000) ∧
    (placed 0x1200).mem.wf = true := ⟨rfl, rfl, by decide, rfl, rfl, by decide⟩

/-- StoredInstructionIsFetchedNext -/
theorem witness_stored_instruction :
    State.reset.mem.wf = true ∧ State.reset.fault = none ∧
    ∃ t, State.reset.memWrite State.reset.pc.toNat (encodeBytes (.ldi 0xA 0x77)) = .ok t := ⟨rfl, rfl, _, rfl⟩

/-- JumpSetsPc, JumpWithOffsetAddsV0: the jump to itself, and the lowest targets whose next fetch faults (C-JP-3). -/
theorem witness_jump_targets :
    State.reset.pc.toNat = (0x200 : Addr).toNat ∧ (0xFFF : Addr).toNat = 0xFFF ∧ State.reset.fault = none ∧
    0xFFE < (State.reset.V 0).toNat + (0xFFF : Addr).toNat := by decide

/-- CallPushesReturnAddress: a free entry, and the stack at its cap. ReturnFollowsItsCall: the state after the call. -/
theorem witness_call :
    (State.reset.stackCap ≠ some State.reset.stack.length ∧
      ∃ t, exec (.call 0xABC) State.reset = .next t ∧ ({ t with pc := 0x300, dt := 9 } : State).stack = t.stack) ∧
    ({ State.reset with stackCap := some 1 } : State).stackCap =
      some ({ State.reset with stackCap := some 1 } : State).stack.length :=
  ⟨⟨fun h => (nomatch h), _, rfl, rfl⟩, rfl⟩

/-- SkipsCompareAndAdvance: the smallest low nibble that is no instruction. -/
theorem witness_skip_nibble : (1 : Nibble) ≠ 0 := by decide

/-- JumpToItselfIsFixedPoint (C-JP-2) -/
theorem witness_self_jump :
    (placed 0x1200).pc.toNat = (0x200 : Addr).toNat ∧ (placed 0x1200).fetch = .ok (formatA 0x1 0x200) := by decide

/-- The flag instructions: a destination other than VF, and VF itself. -/
theorem witness_flag_destination : (0xE : Reg) ≠ regF ∧ (0xF : Reg) = regF := by decide

/-- BcdStoresDecimalDigits: the last base that fits and the first that does not. -/
theorem witness_bcd_bases :
    (placed 0xF033).mem.wf = true ∧ ({ placed 0xF033 with i := 0xFFD } : State).i.toNat + 2 ≤ 0xFFF ∧
    0xFFF < ({ placed 0xF033 with i := 0xFFE } : State).i.toNat + 2 := by decide

/-- StoreRegistersWritesBlock, LoadRegistersReadsBlock, LoadRestoresStoredRegisters: one register and sixteen, at the last
base that fits and the first that does not. -/
theorem witness_block_bases :
    ({ State.reset with i := 0xFFF } : State).i.toNat + (0 : Reg).toNat ≤ 0xFFF ∧
    ({ State.reset with i := 0xFF0 } : State).i.toNat + (0xF : Reg).toNat ≤ 0xFFF ∧
    0xFFF < ({ State.reset with i := 0x1000 } : State).i.toNat + (0 : Reg).toNat ∧
    0xFFF < ({ State.reset with i := 0xFF1 } : State).i.toNat + (0xF : Reg).toNat := by decide

/-- LoadRestoresStoredRegisters: other registers between the two. -/
theorem witness_round_trip :
    State.reset.mem.wf = true ∧ ∃ t, exec (.stm 2) { State.reset with i := 0x300 } = .next t ∧
      ({ t.setV 0 9 with i := 0x300 } : State).mem = t.mem ∧ ({ t.setV 0 9 with i := 0x300 } : State).i = 0x300 :=
  ⟨rfl, _, rfl, rfl, rfl⟩

/-- DrawTogglesCoveredPixels, DrawingTwiceRestoresScreen: G-5, the sprite that exactly fits the corner, over pixels that are
off; it covers (56, 31); VF is another register than the coordinates. -/
theorem witness_draw_fits :
    InMemory ((drawFF 56).effAddr 0) 1 ∧ SpriteFits (drawFF 56) 1 ((drawFF 56).V 0).toNat ((drawFF 56).V 1).toNat ∧
    SpriteCovers (drawFF 56) 1 ((drawFF 56).V 0).toNat ((drawFF 56).V 1).toNat 56 31 ∧
    (∀ px py, (drawFF 56).fb.pixel px py = false) ∧
    ∃ t, exec (.drw 0 1 1) (drawFF 56) = .next t ∧ t.mem = (drawFF 56).mem ∧ t.V 0 = (drawFF 56).V 0 := by
  have hx : ((drawFF 56).V 0).toNat = 56 := by decide
  have hy : ((drawFF 56).V 1).toNat = 31 := by decide
  refine ⟨.inr (by decide), ?_, ⟨0, 0, ⟨by decide, by decide, by decide⟩, hx.symm, hy.symm⟩, pixel_off,
    _, rfl, rfl, by decide⟩
  rintro x y ⟨r, c, ⟨hr, hc, -⟩, rfl, rfl⟩
  rw [hx, hy]
  exact ⟨by simp only [Config.fbWidth]; omega, by simp only [Config.fbHeight]; omega⟩

/-- DrawFaultsInOrder: G-17, one byte above memory; G-6, the last of the eight bits is the first off the screen. -/
theorem witness_draw_faults :
    ¬InMemory (({ State.reset with i := 0x1000 } : State).effAddr 0) 1 ∧
    InMemory ((drawFF 57).effAddr 0) 1 ∧ SpriteBit (drawFF 57) 1 0 7 ∧
    ¬OnScreen (((drawFF 57).V 0).toNat + 7) (((drawFF 57).V 1).toNat + 0) ∧
    ∀ r' c', SpriteBit (drawFF 57) 1 r' c' → r' < 0 ∨ (r' = 0 ∧ c' < 7) →
      OnScreen (((drawFF 57).V 0).toNat + c') (((drawFF 57).V 1).toNat + r') := by
  have hx : ((drawFF 57).V 0).toNat = 57 := by decide
  have hy : ((drawFF 57).V 1).toNat = 31 := by decide
  rw [hx, hy]
  refine ⟨?_, .inr (by decide), ⟨by decide, by decide, by decide⟩, ?_, fun r' c' _ h => ?_⟩
  · rintro (h | h)
    · exact absurd h (by decide)
    · exact absurd h (by decide)
  · rintro ⟨h, -⟩
    exact absurd h (by decide)
  · exact ⟨by simp only [Config.fbWidth]; omega, by simp only [Config.fbHeight]; omega⟩

/-- KeySkipsTestKeyLevel: the highest key and the first value that is none. -/
theorem witness_key_values :
    ((State.reset.setV 5 15).V 5).toNat = (15 : Nibble).toNat ∧ 15 < ((State.reset.setV 5 16).V 5).toNat := by decide

/-- WaitKeyRepeatsUntilPressed: no key, and key 15 alone. -/
theorem witness_keys :
    (∀ k, State.reset.key k = false) ∧ (State.reset.keySet 15 true).key 15 = true ∧
    ∀ j : Nibble, j.toNat < (15 : Nibble).toNat → (State.reset.keySet 15 true).key j = false := by decide

/-- InstructionsWriteOnlyTheirOwnState, OnlyFlagInstructionsWriteVF, OnlyKeyInstructionsReadKeypad: an instruction that
completes, writes no VF and reads no key. SoundTimerIsUnobservable: a STEP that completes. -/
theorem witness_instruction_completes :
    (∃ t, exec (.ldi 0xE 1) State.reset = .next t) ∧ ¬mayWriteVF (.ldi 0xE 1) ∧ ¬readsKeypad (.ldi 0xE 1) ∧
    ∃ t, step State.reset = .next t :=
  ⟨⟨_, rfl⟩, fun h => absurd (show (0xE : Reg) = regF from h) (by decide), fun h => h, _, rfl⟩

end Sys2Proof.Tests
end

section
/-! PROOFS. The call stack: pop, 00EE, and the sentinel that reset leaves (10_state.md R16, R18). -/

namespace Sys2Proof.Proofs

open Sys2Proof.Machine Sys2Proof.Safety Sys2Proof.Laws

/-! ## The stack as a piece of state -/

/-- Replacing the stack keeps every other piece. -/
theorem keptAllBut_with_stack (s : State) (ws : List Word) : KeptAllBut s { s with stack := ws } [.stack] := by
  intro p hp
  cases p with
  | stack => exact absurd (List.mem_singleton_self _) hp
  | registers | keypad | memory => exact fun _ => rfl
  | screen => exact fun _ _ => rfl
  | index | delay | sound | random | fault | stackCap => rfl

/-! ## 00EE (40_control_flow.md R71) -/

theorem exec_ret (s : State) : exec .ret s = execRet s := rfl

/-- 00EE on a stack that holds an entry: the entry is taken off and becomes PC, whatever its value. -/
theorem exec_ret_of_stack_cons {s : State} {w : Word} {ws : List Word} (h : s.stack = w :: ws) :
    exec .ret s = .next { s with pc := w, stack := ws } := by
  have hpop : s.advance.pop = .ok (w, { s.advance with stack := ws }) := pop_cons h
  rw [exec_ret, execRet, hpop]
  rfl

/-- 00EE on the empty stack is the fault, recorded in the state the instruction began in (60_exceptions.md R134). -/
theorem exec_ret_of_stack_nil {s : State} (h : s.stack = []) :
    exec .ret s = .next (s.takeFault .stackUnderflow (some 0x00EE)) := by
  have hpop : s.advance.pop = .error .stackUnderflow := pop_nil h
  rw [exec_ret, execRet, hpop]
  rfl

/-! ## The obligations -/

/-- Settles O27, from the two equations of `State.pop`. -/
theorem popRemovesTopEntry : Obligations.PopRemovesTopEntry := by
  refine fun s => ⟨?empty, ?nonempty⟩
  case empty => exact pop_nil
  case nonempty => exact fun w ws h => ⟨{ s with stack := ws }, pop_cons h, rfl, rfl, keptAllBut_with_stack s ws⟩

/-- Settles O15: the sentinel is an entry like any other, so the first unmatched 00EE pops it and the second finds the
stack empty. -/
theorem sentinelIsPoppedOnceThenUnderflow : Obligations.SentinelIsPoppedOnceThenUnderflow := by
  refine ⟨?reset, ?resetEvent, ?sentinel, ?empty⟩
  case reset => exact launch_stack ..
  case resetEvent => exact fun s => launch_stack ..
  case sentinel => exact fun s h => ⟨_, exec_ret_of_stack_cons h, rfl, rfl, rfl⟩
  case empty => exact fun s h => exec_ret_of_stack_nil h

end Sys2Proof.Proofs
end

section
/-! PROOFS. Memory: reads, writes and fetches of bytes, with their bounds check (20_memory.md R34 to R36). -/

namespace Sys2Proof.Proofs

open Sys2Proof.Machine Sys2Proof.Safety Sys2Proof.Laws

/-! ## Memory as a piece of state -/

/-- Replacing the memory keeps every other piece. -/
theorem keptAllBut_with_mem (s : State) (m : Memory) : KeptAllBut s { s with mem := m } [.memory] := by
  intro p hp
  cases p with
  | memory => exact absurd (List.mem_singleton_self _) hp
  | registers | keypad => exact fun _ => rfl
  | screen => exact fun _ _ => rfl
  | index | stack | delay | sound | random | fault | stackCap => rfl

/-- A block store leaves every byte outside the block as it was. -/
theorem read_writeBytes_outside {m : Memory} (hm : m.wf = true) {bs : List Byte} {a k : Nat}
    (ha : a + bs.length ≤ Config.memSize) (hk : k < a ∨ a + bs.length ≤ k) :
    (m.writeBytes a bs).read k = m.read k := by
  rw [read_writeBytes hm bs a ha]
  rcases hk with below | above
  · rw [if_neg (by omega)]
  · rw [if_pos (by omega), List.getElem?_eq_none (by omega), Option.getD_none]

/-! ## The bounds check in terms of the last address 0xFFF -/

theorem le_memSize_iff (a n : Nat) : a + (n + 1) ≤ Config.memSize ↔ a + n ≤ 0xFFF := by
  rw [Config.memSize]
  omega

theorem memSize_lt_iff (a n : Nat) : Config.memSize < a + (n + 1) ↔ 0xFFF < a + n := by
  rw [Config.memSize]
  omega

/-- When the base itself is above memory, it is the reported address. -/
theorem max_memSize_of_above {a : Nat} (h : 0xFFF < a) : max a Config.memSize = a := Nat.max_eq_left h

/-- Of two bytes at `a` not both in memory, `a` is reported where it is above memory itself, else `a + 1`. -/
theorem max_memSize_of_next_above {a : Nat} (h : 0xFFF < a + 1) :
    max a Config.memSize = if 0xFFF < a then a else a + 1 := by
  split
  · next above => exact max_memSize_of_above above
  · next inside =>
    have last : a = 0xFFF := by omega
    rw [last]
    rfl

/-! ## The obligations -/

/-- Settles O25: the two outcomes of `State.memWrite` on a block of one byte, and what a read after it gives. -/
theorem writeChangesOneByte : Obligations.WriteChangesOneByte := by
  refine fun s a b hm => ⟨fun above => ?fault, fun inside => ?stored⟩
  case fault =>
    rw [memWrite_error (bs := [b]) Nat.one_pos ((memSize_lt_iff a 0).2 above), max_memSize_of_above above]
  case stored =>
    have fits : a + [b].length ≤ Config.memSize := (le_memSize_iff a 0).2 inside
    refine ⟨_, memWrite_ok (.inr fits), ?byte, ?outside, rfl, keptAllBut_with_mem s _⟩
    case byte => exact (read_write hm a b a).trans (if_pos rfl)
    case outside => exact fun k hk => read_writeBytes_outside hm fits hk

/-- Settles O24: the two outcomes of `State.memRead` on one byte and of `State.fetch` on the two bytes at PC. -/
theorem readsAreBoundsChecked : Obligations.ReadsAreBoundsChecked := by
  refine fun s a => ⟨fun above => ?readFault, fun inside => ?read, fun above => ?fetchFault, fun inside => ?fetch⟩
  case readFault =>
    rw [memRead_error Nat.one_pos ((memSize_lt_iff a 0).2 above), max_memSize_of_above above]
  case read => exact memRead_ok (.inr ((le_memSize_iff a 0).2 inside))
  case fetchFault =>
    rw [fetch_error ((memSize_lt_iff s.pc.toNat 1).2 above), max_memSize_of_next_above above]
  case fetch => exact ⟨_, fetch_ok ((le_memSize_iff s.pc.toNat 1).2 inside), toNat_wordOfBytes _ _⟩

end Sys2Proof.Proofs
end

section
/-! PROOFS. The six fields of a word as numbers, and the word put together from them (30_encoding.md R51). -/

namespace Sys2Proof.Proofs

open Sys2Proof.Laws

/-! ## Each field as a quotient and a remainder -/

theorem toNat_nibble1 (w : Word) : (nibble1 w).toNat = w.toNat / 4096 := by
  rw [nibble1, BitVec.extractLsb'_toNat, Nat.shiftRight_eq_div_pow]
  omega

theorem toNat_fieldX (w : Word) : (fieldX w).toNat = w.toNat / 256 % 16 := by
  rw [fieldX, BitVec.extractLsb'_toNat, Nat.shiftRight_eq_div_pow]

theorem toNat_fieldY (w : Word) : (fieldY w).toNat = w.toNat / 16 % 16 := by
  rw [fieldY, BitVec.extractLsb'_toNat, Nat.shiftRight_eq_div_pow]

theorem toNat_fieldN (w : Word) : (fieldN w).toNat = w.toNat % 16 := BitVec.extractLsb'_toNat ..

theorem toNat_fieldNNN (w : Word) : (fieldNNN w).toNat = w.toNat % 4096 := BitVec.extractLsb'_toNat ..

theorem toNat_fieldNN (w : Word) : (fieldNN w).toNat = w.toNat % 256 := BitVec.extractLsb'_toNat ..

/-! ## The wide fields put together from the narrow ones -/

theorem fieldY_append_fieldN (w : Word) : fieldY w ++ fieldN w = fieldNN w :=
  BitVec.extractLsb'_append_extractLsb'_eq_extractLsb' rfl

theorem fieldX_append_fieldY_append_fieldN (w : Word) : fieldX w ++ fieldY w ++ fieldN w = fieldNNN w := by
  have hXY : fieldX w ++ fieldY w = w.extractLsb' 4 8 := BitVec.extractLsb'_append_extractLsb'_eq_extractLsb' rfl
  rw [hXY]
  exact BitVec.extractLsb'_append_extractLsb'_eq_extractLsb' rfl

/-! ## The obligation -/

/-- Settles O1, from the fields as numbers and the concatenations. -/
theorem wordFieldsAreTheirBitRanges : Obligations.WordFieldsAreTheirBitRanges := fun w =>
  ⟨toNat_nibble1 w, toNat_fieldX w, toNat_fieldY w, toNat_fieldN w, toNat_fieldNNN w, toNat_fieldNN w,
    (formatR_fields w).symm, (fieldX_append_fieldY_append_fieldN w).symm, (fieldY_append_fieldN w).symm⟩

end Sys2Proof.Proofs
end

section
/-! PROOFS. The decoder against the opcode table: a word that a row selects is decoded to an instruction of that row,
and an accepted word is selected by its instruction's row (30_encoding.md R54, R55, R62). -/

namespace Sys2Proof.Proofs

open Sys2Proof.Laws

/-! ## Primary dispatch on `nibble1` (R54) -/

theorem decodeWord_jp {w : Word} (h : nibble1 w = 0x1#4) : decodeWord w = .ok (.jp (fieldNNN w)) := by
  rw [decodeWord, h]
  rfl

theorem decodeWord_call {w : Word} (h : nibble1 w = 0x2#4) : decodeWord w = .ok (.call (fieldNNN w)) := by
  rw [decodeWord, h]
  rfl

theorem decodeWord_sei {w : Word} (h : nibble1 w = 0x3#4) : decodeWord w = .ok (.sei (fieldX w) (fieldNN w)) := by
  rw [decodeWord, h]
  rfl

theorem decodeWord_snei {w : Word} (h : nibble1 w = 0x4#4) : decodeWord w = .ok (.snei (fieldX w) (fieldNN w)) := by
  rw [decodeWord, h]
  rfl

theorem decodeWord_bucket5 {w : Word} (h : nibble1 w = 0x5#4) :
    decodeWord w = decode5 (fieldX w) (fieldY w) (fieldN w) := by
  rw [decodeWord, h]
  rfl

theorem decodeWord_ldi {w : Word} (h : nibble1 w = 0x6#4) : decodeWord w = .ok (.ldi (fieldX w) (fieldNN w)) := by
  rw [decodeWord, h]
  rfl

theorem decodeWord_addi {w : Word} (h : nibble1 w = 0x7#4) : decodeWord w = .ok (.addi (fieldX w) (fieldNN w)) := by
  rw [decodeWord, h]
  rfl

theorem decodeWord_bucket8 {w : Word} (h : nibble1 w = 0x8#4) :
    decodeWord w = decode8 (fieldX w) (fieldY w) (fieldN w) := by
  rw [decodeWord, h]
  rfl

theorem decodeWord_bucket9 {w : Word} (h : nibble1 w = 0x9#4) :
    decodeWord w = decode9 (fieldX w) (fieldY w) (fieldN w) := by
  rw [decodeWord, h]
  rfl

theorem decodeWord_lda {w : Word} (h : nibble1 w = 0xA#4) : decodeWord w = .ok (.lda (fieldNNN w)) := by
  rw [decodeWord, h]
  rfl

theorem decodeWord_jpv0 {w : Word} (h : nibble1 w = 0xB#4) : decodeWord w = .ok (.jpv0 (fieldNNN w)) := by
  rw [decodeWord, h]
  rfl

theorem decodeWord_rnd {w : Word} (h : nibble1 w = 0xC#4) : decodeWord w = .ok (.rnd (fieldX w) (fieldNN w)) := by
  rw [decodeWord, h]
  rfl

theorem decodeWord_drw {w : Word} (h : nibble1 w = 0xD#4) :
    decodeWord w = .ok (.drw (fieldX w) (fieldY w) (fieldN w)) := by
  rw [decodeWord, h]
  rfl

theorem decodeWord_bucketE {w : Word} (h : nibble1 w = 0xE#4) : decodeWord w = decodeE (fieldX w) (fieldNN w) := by
  rw [decodeWord, h]
  rfl

theorem decodeWord_bucketF {w : Word} (h : nibble1 w = 0xF#4) : decodeWord w = decodeF (fieldX w) (fieldNN w) := by
  rw [decodeWord, h]
  rfl

/-! ## What the mask of a row says about the fields -/

theorem selects_iff (r : Row) (w : Word) : r.selects w = true ↔ w &&& r.mask = r.bits := beq_iff_eq

/-- Formats A, I and D: the mask 0xF000 fixes `nibble1`. -/
theorem nibble1_of_mask {w : Word} {k : Nibble} (h : w &&& 0xF000#16 = formatA k 0) : nibble1 w = k := by
  rw [← formatA_fields w, mask_formatA] at h
  simpa using congrArg nibble1 h

/-- Format R: the mask 0xF00F fixes `nibble1` and `N`. -/
theorem nibble1_fieldN_of_mask {w : Word} {k n : Nibble} (h : w &&& 0xF00F#16 = formatR k 0 0 n) :
    nibble1 w = k ∧ fieldN w = n := by
  rw [← formatR_fields w, mask_formatR] at h
  exact ⟨by simpa using congrArg nibble1 h, by simpa using congrArg fieldN h⟩

/-- Format S: the mask 0xF0FF fixes `nibble1` and `NN`. -/
theorem nibble1_fieldNN_of_mask {w : Word} {k : Nibble} {nn : Byte} (h : w &&& 0xF0FF#16 = formatI k 0 nn) :
    nibble1 w = k ∧ fieldNN w = nn := by
  rw [← formatI_fields w, mask_formatS] at h
  exact ⟨by simpa using congrArg nibble1 h, by simpa using congrArg fieldNN h⟩

/-! ## Every row decodes the words it selects -/

/-- Each word the row selects is decoded to an instruction of the row. -/
def DecodesSelected (r : Row) : Prop := ∀ w, r.selects w = true → ∃ i, decodeWord w = .ok i ∧ i.row = r

/-- A row whose mask fixes the whole word. -/
theorem decodesSelected_word {name : String} {bits : Word} (i : Instr) (hdecode : decodeWord bits = .ok i)
    (hrow : i.row = ⟨name, 0xFFFF#16, bits⟩) : DecodesSelected ⟨name, 0xFFFF#16, bits⟩ := fun w h => by
  have hw : w = bits := (BitVec.and_allOnes (x := w)).symm.trans ((selects_iff _ w).1 h)
  exact ⟨i, hw ▸ hdecode, hrow⟩

/-- A row of format A, I or D: the primary dispatch decides. -/
theorem decodesSelected_nibble1 {name : String} {bits : Word} {k : Nibble} {ins : Word → Instr}
    (hdecode : ∀ {w}, nibble1 w = k → decodeWord w = .ok (ins w))
    (hrow : ∀ w, (ins w).row = ⟨name, 0xF000#16, bits⟩ := by exact fun _ => rfl)
    (hbits : bits = formatA k 0 := by decide) : DecodesSelected ⟨name, 0xF000#16, bits⟩ := fun w h => by
  have hk : nibble1 w = k := nibble1_of_mask (((selects_iff _ w).1 h).trans hbits)
  exact ⟨ins w, hdecode hk, hrow w⟩

/-- A row of format R: the bucket's dispatch on `N` decides. -/
theorem decodesSelected_fieldN {name : String} {bits : Word} {k : Nibble}
    {bucket : Reg → Reg → Nibble → Except DecodeError Instr}
    (hdispatch : ∀ {w}, nibble1 w = k → decodeWord w = bucket (fieldX w) (fieldY w) (fieldN w))
    (n : Nibble) (ins : Reg → Reg → Instr) (hbucket : ∀ x y, bucket x y n = .ok (ins x y) := by exact fun _ _ => rfl)
    (hrow : ∀ x y, (ins x y).row = ⟨name, 0xF00F#16, bits⟩ := by exact fun _ _ => rfl)
    (hbits : bits = formatR k 0 0 n := by decide) : DecodesSelected ⟨name, 0xF00F#16, bits⟩ := fun w h => by
  obtain ⟨hk, hn⟩ := nibble1_fieldN_of_mask (((selects_iff _ w).1 h).trans hbits)
  exact ⟨ins (fieldX w) (fieldY w), by rw [hdispatch hk, hn, hbucket], hrow _ _⟩

/-- A row of format S: the bucket's dispatch on `NN` decides. -/
theorem decodesSelected_fieldNN {name : String} {bits : Word} {k : Nibble}
    {bucket : Reg → Byte → Except DecodeError Instr}
    (hdispatch : ∀ {w}, nibble1 w = k → decodeWord w = bucket (fieldX w) (fieldNN w))
    (nn : Byte) (ins : Reg → Instr) (hbucket : ∀ x, bucket x nn = .ok (ins x) := by exact fun _ => rfl)
    (hrow : ∀ x, (ins x).row = ⟨name, 0xF0FF#16, bits⟩ := by exact fun _ => rfl)
    (hbits : bits = formatI k 0 nn := by decide) : DecodesSelected ⟨name, 0xF0FF#16, bits⟩ := fun w h => by
  obtain ⟨hk, hnn⟩ := nibble1_fieldNN_of_mask (((selects_iff _ w).1 h).trans hbits)
  exact ⟨ins (fieldX w), by rw [hdispatch hk, hnn, hbucket], hrow _⟩

theorem opcodeRows0to7_decodesSelected : ∀ r ∈ opcodeRows0to7, DecodesSelected r := by
  simp only [opcodeRows0to7, List.forall_mem_cons]
  refine ⟨?cls, ?ret, ?jp, ?call, ?sei, ?snei, ?ser, ?ldi, ?addi, List.forall_mem_nil _⟩
  case cls => exact decodesSelected_word .cls rfl rfl
  case ret => exact decodesSelected_word .ret rfl rfl
  case jp => exact decodesSelected_nibble1 decodeWord_jp
  case call => exact decodesSelected_nibble1 decodeWord_call
  case sei => exact decodesSelected_nibble1 decodeWord_sei
  case snei => exact decodesSelected_nibble1 decodeWord_snei
  case ser => exact decodesSelected_fieldN decodeWord_bucket5 0x0#4 .ser
  case ldi => exact decodesSelected_nibble1 decodeWord_ldi
  case addi => exact decodesSelected_nibble1 decodeWord_addi

theorem opcodeRows8_decodesSelected : ∀ r ∈ opcodeRows8, DecodesSelected r := by
  simp only [opcodeRows8, List.forall_mem_cons]
  refine ⟨?mov, ?or, ?and, ?xor, ?add, ?sub, ?shr, ?subn, ?shl, List.forall_mem_nil _⟩
  case mov => exact decodesSelected_fieldN decodeWord_bucket8 0x0#4 .mov
  case or => exact decodesSelected_fieldN decodeWord_bucket8 0x1#4 .or
  case and => exact decodesSelected_fieldN decodeWord_bucket8 0x2#4 .and
  case xor => exact decodesSelected_fieldN decodeWord_bucket8 0x3#4 .xor
  case add => exact decodesSelected_fieldN decodeWord_bucket8 0x4#4 .add
  case sub => exact decodesSelected_fieldN decodeWord_bucket8 0x5#4 .sub
  case shr => exact decodesSelected_fieldN decodeWord_bucket8 0x6#4 .shr
  case subn => exact decodesSelected_fieldN decodeWord_bucket8 0x7#4 .subn
  case shl => exact decodesSelected_fieldN decodeWord_bucket8 0xE#4 .shl

theorem opcodeRows9toE_decodesSelected : ∀ r ∈ opcodeRows9toE, DecodesSelected r := by
  simp only [opcodeRows9toE, List.forall_mem_cons]
  refine ⟨?sner, ?lda, ?jpv0, ?rnd, ?drw, ?skp, ?sknp, List.forall_mem_nil _⟩
  case sner => exact decodesSelected_fieldN decodeWord_bucket9 0x0#4 .sner
  case lda => exact decodesSelected_nibble1 decodeWord_lda
  case jpv0 => exact decodesSelected_nibble1 decodeWord_jpv0
  case rnd => exact decodesSelected_nibble1 decodeWord_rnd
  case drw => exact decodesSelected_nibble1 decodeWord_drw
  case skp => exact decodesSelected_fieldNN decodeWord_bucketE 0x9E#8 .skp
  case sknp => exact decodesSelected_fieldNN decodeWord_bucketE 0xA1#8 .sknp

theorem opcodeRowsF_decodesSelected : ∀ r ∈ opcodeRowsF, DecodesSelected r := by
  simp only [opcodeRowsF, List.forall_mem_cons]
  refine ⟨?getdt, ?waitk, ?setdt, ?setst, ?adda, ?font, ?bcd, ?stm, ?ldm, List.forall_mem_nil _⟩
  case getdt => exact decodesSelected_fieldNN decodeWord_bucketF 0x07#8 .getdt
  case waitk => exact decodesSelected_fieldNN decodeWord_bucketF 0x0A#8 .waitk
  case setdt => exact decodesSelected_fieldNN decodeWord_bucketF 0x15#8 .setdt
  case setst => exact decodesSelected_fieldNN decodeWord_bucketF 0x18#8 .setst
  case adda => exact decodesSelected_fieldNN decodeWord_bucketF 0x1E#8 .adda
  case font => exact decodesSelected_fieldNN decodeWord_bucketF 0x29#8 .font
  case bcd => exact decodesSelected_fieldNN decodeWord_bucketF 0x33#8 .bcd
  case stm => exact decodesSelected_fieldNN decodeWord_bucketF 0x55#8 .stm
  case ldm => exact decodesSelected_fieldNN decodeWord_bucketF 0x65#8 .ldm

theorem opcodeTable_decodesSelected : ∀ r ∈ opcodeTable, DecodesSelected r := by
  simp only [opcodeTable, List.forall_mem_append]
  exact ⟨⟨⟨opcodeRows0to7_decodesSelected, opcodeRows8_decodesSelected⟩, opcodeRows9toE_decodesSelected⟩,
    opcodeRowsF_decodesSelected⟩

/-! ## An accepted word is the word of its instruction (R57, R59) -/

theorem encode_of_decode0 {a : Addr} {i : Instr} (h : decode0 a = .ok i) : encode i = formatA 0x0#4 a := by
  unfold decode0 at h
  split at h <;> cases h
  case h_1 ha => exact congrArg (formatA 0x0#4) (BitVec.eq_of_toNat_eq (x := 0x0E0#12) ha.symm)
  case h_2 ha => exact congrArg (formatA 0x0#4) (BitVec.eq_of_toNat_eq (x := 0x0EE#12) ha.symm)

theorem encode_of_decode5 {x y : Reg} {n : Nibble} {i : Instr} (h : decode5 x y n = .ok i) :
    encode i = formatR 0x5#4 x y n := by
  unfold decode5 at h
  split at h <;> cases h
  next hn => exact congrArg (formatR 0x5#4 x y) (BitVec.eq_of_toNat_eq hn).symm

theorem encode_of_decode8 {x y : Reg} {n : Nibble} {i : Instr} (h : decode8 x y n = .ok i) :
    encode i = formatR 0x8#4 x y n := by
  unfold decode8 at h
  split at h <;> cases h
  all_goals next hn => exact congrArg (formatR 0x8#4 x y) (BitVec.eq_of_toNat_eq hn).symm

theorem encode_of_decode9 {x y : Reg} {n : Nibble} {i : Instr} (h : decode9 x y n = .ok i) :
    encode i = formatR 0x9#4 x y n := by
  unfold decode9 at h
  split at h <;> cases h
  next hn => exact congrArg (formatR 0x9#4 x y) (BitVec.eq_of_toNat_eq hn).symm

theorem encode_of_decodeE {x : Reg} {nn : Byte} {i : Instr} (h : decodeE x nn = .ok i) :
    encode i = formatI 0xE#4 x nn := by
  unfold decodeE at h
  split at h <;> cases h
  all_goals next hnn => exact congrArg (formatI 0xE#4 x) (BitVec.eq_of_toNat_eq hnn).symm

theorem encode_of_decodeF {x : Reg} {nn : Byte} {i : Instr} (h : decodeF x nn = .ok i) :
    encode i = formatI 0xF#4 x nn := by
  unfold decodeF at h
  split at h <;> cases h
  all_goals next hnn => exact congrArg (formatI 0xF#4 x) (BitVec.eq_of_toNat_eq hnn).symm

theorem formatA_of_nibble1 {w : Word} {k : Nibble} (hk : (nibble1 w).toNat = k.toNat) :
    formatA k (fieldNNN w) = w := by
  rw [← BitVec.eq_of_toNat_eq hk, formatA_fields]

theorem formatI_of_nibble1 {w : Word} {k : Nibble} (hk : (nibble1 w).toNat = k.toNat) :
    formatI k (fieldX w) (fieldNN w) = w := by
  rw [← BitVec.eq_of_toNat_eq hk, formatI_fields]

theorem formatR_of_nibble1 {w : Word} {k : Nibble} (hk : (nibble1 w).toNat = k.toNat) :
    formatR k (fieldX w) (fieldY w) (fieldN w) = w := by
  rw [← BitVec.eq_of_toNat_eq hk, formatR_fields]

theorem encode_of_decodeWord {w : Word} {i : Instr} (h : decodeWord w = .ok i) : encode i = w := by
  unfold decodeWord at h
  split at h
  case h_1 hk => exact (encode_of_decode0 h).trans (formatA_of_nibble1 hk)
  case h_6 hk => exact (encode_of_decode5 h).trans (formatR_of_nibble1 hk)
  case h_9 hk => exact (encode_of_decode8 h).trans (formatR_of_nibble1 hk)
  case h_10 hk => exact (encode_of_decode9 h).trans (formatR_of_nibble1 hk)
  case h_15 hk => exact (encode_of_decodeE h).trans (formatI_of_nibble1 hk)
  case h_16 =>
    have hlt : (nibble1 w).toNat < 16 := (nibble1 w).isLt
    have hk : (nibble1 w).toNat = 0xF := by
      simp only [imp_false] at *
      omega
    exact (encode_of_decodeF h).trans (formatI_of_nibble1 hk)
  case h_2 hk | h_3 hk | h_11 hk | h_12 hk => cases h; exact formatA_of_nibble1 hk
  case h_4 hk | h_5 hk | h_7 hk | h_8 hk | h_13 hk => cases h; exact formatI_of_nibble1 hk
  case h_14 hk => cases h; exact formatR_of_nibble1 hk

/-! ## An accepted word and its row (R62) -/

/-- The per-instruction family, over all instructions. -/
theorem encodesRow (i : Instr) : EncodesRow.Statement i := by
  cases i with
  | cls => exact EncodesRow.cls ..
  | ret => exact EncodesRow.ret ..
  | jp => exact EncodesRow.jp ..
  | call => exact EncodesRow.call ..
  | sei => exact EncodesRow.sei ..
  | snei => exact EncodesRow.snei ..
  | ser => exact EncodesRow.ser ..
  | ldi => exact EncodesRow.ldi ..
  | addi => exact EncodesRow.addi ..
  | mov => exact EncodesRow.mov ..
  | or => exact EncodesRow.or ..
  | and => exact EncodesRow.and ..
  | xor => exact EncodesRow.xor ..
  | add => exact EncodesRow.add ..
  | sub => exact EncodesRow.sub ..
  | shr => exact EncodesRow.shr ..
  | subn => exact EncodesRow.subn ..
  | shl => exact EncodesRow.shl ..
  | sner => exact EncodesRow.sner ..
  | lda => exact EncodesRow.lda ..
  | jpv0 => exact EncodesRow.jpv0 ..
  | rnd => exact EncodesRow.rnd ..
  | drw => exact EncodesRow.drw ..
  | skp => exact EncodesRow.skp ..
  | sknp => exact EncodesRow.sknp ..
  | getdt => exact EncodesRow.getdt ..
  | waitk => exact EncodesRow.waitk ..
  | setdt => exact EncodesRow.setdt ..
  | setst => exact EncodesRow.setst ..
  | adda => exact EncodesRow.adda ..
  | font => exact EncodesRow.font ..
  | bcd => exact EncodesRow.bcd ..
  | stm => exact EncodesRow.stm ..
  | ldm => exact EncodesRow.ldm ..

/-- An accepted word is selected by its instruction's row. -/
theorem row_selects_of_decodeWord {w : Word} {i : Instr} (h : decodeWord w = .ok i) : i.row.selects w = true := by
  have hsel : i.row.selects (encode i) = true := (encodesRow i).2
  rwa [encode_of_decodeWord h] at hsel

/-- A row that selects an accepted word is the row of its instruction, because the decoder gives one answer. -/
theorem eq_row_of_selects {w : Word} {i : Instr} (h : decodeWord w = .ok i) {r : Row} (hr : r ∈ opcodeTable)
    (hsel : r.selects w = true) : r = i.row := by
  obtain ⟨j, hj, hrow⟩ := opcodeTable_decodesSelected r hr w hsel
  cases hj.symm.trans h
  exact hrow.symm

/-! ## The obligation -/

/-- Settles O4: every row decodes the words it selects, and every accepted word is the word of its instruction. -/
theorem decoderFollowsOpcodeTable : Obligations.DecoderFollowsOpcodeTable := by
  refine ⟨?length, ?rule, ?decoded, ?unique⟩
  case length => rfl
  case rule => exact fun w r _ => selects_iff r w
  case decoded => exact fun w r hr => opcodeTable_decodesSelected r hr w
  case unique =>
    refine fun w i h => ⟨(encodesRow i).1, fun r hr => ⟨eq_row_of_selects h hr, ?_⟩⟩
    rintro rfl
    exact row_selects_of_decodeWord h

end Sys2Proof.Proofs
end

section
/-! PROOFS. The decoder on the word of an instruction: each bucket's sub-dispatch on a word put together from its
fields, and the instruction itself back from its word (30_encoding.md R52, R54, R55). -/

namespace Sys2Proof.Proofs

open Sys2Proof.Laws

/-! ## The buckets with a sub-dispatch -/

theorem decodeWord_formatR_5 (x y : Reg) (n : Nibble) : decodeWord (formatR 0x5#4 x y n) = decode5 x y n := by
  rw [decodeWord_bucket5 (nibble1_formatR ..), fieldX_formatR, fieldY_formatR, fieldN_formatR]

theorem decodeWord_formatR_8 (x y : Reg) (n : Nibble) : decodeWord (formatR 0x8#4 x y n) = decode8 x y n := by
  rw [decodeWord_bucket8 (nibble1_formatR ..), fieldX_formatR, fieldY_formatR, fieldN_formatR]

theorem decodeWord_formatR_9 (x y : Reg) (n : Nibble) : decodeWord (formatR 0x9#4 x y n) = decode9 x y n := by
  rw [decodeWord_bucket9 (nibble1_formatR ..), fieldX_formatR, fieldY_formatR, fieldN_formatR]

theorem decodeWord_formatI_E (x : Reg) (nn : Byte) : decodeWord (formatI 0xE#4 x nn) = decodeE x nn := by
  rw [decodeWord_bucketE (nibble1_formatI ..), fieldX_formatI, fieldNN_formatI]

theorem decodeWord_formatI_F (x : Reg) (nn : Byte) : decodeWord (formatI 0xF#4 x nn) = decodeF x nn := by
  rw [decodeWord_bucketF (nibble1_formatI ..), fieldX_formatI, fieldNN_formatI]

/-- Bucket 5 holds one instruction, at low nibble 0 (decision D16). -/
theorem decode5_of_ne_zero (x y : Reg) {n : Nibble} (h : n ≠ 0) : decode5 x y n = .error .bucket5 := by
  unfold decode5
  split
  · next hn => exact absurd (BitVec.eq_of_toNat_eq hn) h
  · rfl

/-- Bucket 9 holds one instruction, at low nibble 0 (decision D16). -/
theorem decode9_of_ne_zero (x y : Reg) {n : Nibble} (h : n ≠ 0) : decode9 x y n = .error .bucket9 := by
  unfold decode9
  split
  · next hn => exact absurd (BitVec.eq_of_toNat_eq hn) h
  · rfl

/-! ## Every instruction is what its word decodes to -/

theorem decodeWord_encode (i : Instr) : decodeWord (encode i) = .ok i := by
  cases i with
  | cls | ret => rfl
  | jp => rw [encode, decodeWord_jp (nibble1_formatA ..), fieldNNN_formatA]
  | call => rw [encode, decodeWord_call (nibble1_formatA ..), fieldNNN_formatA]
  | lda => rw [encode, decodeWord_lda (nibble1_formatA ..), fieldNNN_formatA]
  | jpv0 => rw [encode, decodeWord_jpv0 (nibble1_formatA ..), fieldNNN_formatA]
  | sei => rw [encode, decodeWord_sei (nibble1_formatI ..), fieldX_formatI, fieldNN_formatI]
  | snei => rw [encode, decodeWord_snei (nibble1_formatI ..), fieldX_formatI, fieldNN_formatI]
  | ldi => rw [encode, decodeWord_ldi (nibble1_formatI ..), fieldX_formatI, fieldNN_formatI]
  | addi => rw [encode, decodeWord_addi (nibble1_formatI ..), fieldX_formatI, fieldNN_formatI]
  | rnd => rw [encode, decodeWord_rnd (nibble1_formatI ..), fieldX_formatI, fieldNN_formatI]
  | drw => rw [encode, decodeWord_drw (nibble1_formatR ..), fieldX_formatR, fieldY_formatR, fieldN_formatR]
  | ser => exact decodeWord_formatR_5 ..
  | mov | or | and | xor | add | sub | shr | subn | shl => exact decodeWord_formatR_8 ..
  | sner => exact decodeWord_formatR_9 ..
  | skp | sknp => exact decodeWord_formatI_E ..
  | getdt | waitk | setdt | setst | adda | font | bcd | stm | ldm => exact decodeWord_formatI_F ..

end Sys2Proof.Proofs
end

section
/-! PROOFS. Control transfer: jumps, calls, returns and skips change PC, and the calls and returns the stack
(40_control_flow.md R71 to R78). -/

namespace Sys2Proof.Proofs

open Sys2Proof.Machine Sys2Proof.Safety Sys2Proof.Laws

/-! ## PC is no piece of state -/

theorem keptAllBut_refl (s : State) (changed : List Piece) : KeptAllBut s s changed := by
  intro p _
  cases p with
  | registers | keypad | memory => exact fun _ => rfl
  | screen => exact fun _ _ => rfl
  | index | stack | delay | sound | random | fault | stackCap => rfl

/-- Setting PC after whatever else was changed keeps what was kept. -/
theorem keptAllBut_with_pc {s t : State} {changed : List Piece} (h : KeptAllBut s t changed) (w : Word) :
    KeptAllBut s { t with pc := w } changed := by
  intro p hp
  cases p with
  | registers | index | stack | delay | sound | keypad | memory | screen | random | fault | stackCap => exact h _ hp

/-! ## Jump targets as numbers -/

@[simp] theorem toNat_addrWord (nnn : Addr) : (addrWord nnn).toNat = nnn.toNat :=
  BitVec.toNat_setWidth_of_le (by decide)

@[simp] theorem toNat_byteWord (b : Byte) : (byteWord b).toNat = b.toNat :=
  BitVec.toNat_setWidth_of_le (by decide)

/-- The target of BNNN fits PC's 16 bits, so the sum is exact (R78). -/
theorem toNat_byteWord_add_addrWord (b : Byte) (nnn : Addr) :
    (byteWord b + addrWord nnn).toNat = b.toNat + nnn.toNat := by
  have hb : b.toNat < 256 := b.isLt
  have hnnn : nnn.toNat < 4096 := nnn.isLt
  rw [BitVec.toNat_add, toNat_byteWord, toNat_addrWord, Nat.mod_eq_of_lt (by omega)]

/-! ## A STEP that cannot fetch -/

theorem step_of_fetch_error {s : State} {f : Fault} (hrun : s.fault = none) (hf : s.fetch = .error f) :
    step s = .next (s.takeFault f none) := by
  rw [step, stepCycle, halted_eq_false.2 hrun, hf]
  rfl

/-- With PC above 0xFFE, where no word fits, the STEP takes the fetch fault (20_memory.md R35). -/
theorem step_of_pc_above {s : State} (hrun : s.fault = none) (hpc : 0xFFE < s.pc.toNat) :
    step s = .next (s.takeFault (.memoryOutOfRange (max s.pc.toNat 0x1000)) none) :=
  step_of_fetch_error hrun (fetch_error (by rw [Config.memSize]; omega))

/-- PC at the last byte: the word's second byte would be at 0x1000. -/
theorem step_of_pc_last {s : State} (hrun : s.fault = none) (hpc : s.pc.toNat = 0xFFF) :
    step s = .next (s.takeFault (.memoryOutOfRange 0x1000) none) := by
  rw [step_of_pc_above hrun (by omega), hpc]
  rfl

/-! ## What each instruction answers -/

theorem exec_jp (nnn : Addr) (s : State) : exec (.jp nnn) s = .next { s with pc := addrWord nnn } := rfl

theorem exec_jpv0 (nnn : Addr) (s : State) :
    exec (.jpv0 nnn) s = .next { s with pc := byteWord (s.V 0) + addrWord nnn } := rfl

theorem exec_call (nnn : Addr) (s : State) : exec (.call nnn) s = execCall nnn s := rfl

theorem exec_call_of_room (nnn : Addr) {s : State} (h : s.stackCap ≠ some s.stack.length) :
    exec (.call nnn) s = .next { s with pc := addrWord nnn, stack := (s.pc + 2) :: s.stack } := by
  have hpush : s.advance.push s.advance.pc = .ok { s.advance with stack := (s.pc + 2) :: s.stack } := push_ok h
  rw [exec_call, execCall, hpush]
  rfl

/-- 2NNN at `STACK_CAP` is the fault, recorded in the state the instruction began in (60_exceptions.md R138). -/
theorem exec_call_of_full (nnn : Addr) {s : State} (h : s.stackCap = some s.stack.length) :
    exec (.call nnn) s = .next (s.takeFault .stackOverflow (some (formatA 0x2 nnn))) := by
  have hpush : s.advance.push s.advance.pc = .error .stackOverflow := push_error h
  rw [exec_call, execCall, hpush]
  rfl

/-- The whole effect of a conditional skip: the instruction's own advance by 2, and 2 more on its condition (R70). -/
theorem advance_skipIf (s : State) {c : Bool} {P : Prop} [Decidable P] (h : c = true ↔ P) :
    s.advance.skipIf c = { s with pc := if P then s.pc + 4 else s.pc + 2 } := by
  by_cases hP : P
  · have hpc : s.pc + 2 + 2 = s.pc + 4 := BitVec.add_assoc ..
    rw [if_pos hP, ← hpc, h.2 hP]
    rfl
  · rw [if_neg hP, eq_false_of_ne_true (mt h.1 hP)]
    rfl

theorem exec_sei (x : Reg) (nn : Byte) (s : State) :
    exec (.sei x nn) s = .next { s with pc := if s.V x = nn then s.pc + 4 else s.pc + 2 } :=
  congrArg Host.Outcome.next (advance_skipIf s beq_iff_eq)

theorem exec_snei (x : Reg) (nn : Byte) (s : State) :
    exec (.snei x nn) s = .next { s with pc := if s.V x ≠ nn then s.pc + 4 else s.pc + 2 } :=
  congrArg Host.Outcome.next (advance_skipIf s bne_iff_ne)

theorem exec_ser (x y : Reg) (s : State) :
    exec (.ser x y) s = .next { s with pc := if s.V x = s.V y then s.pc + 4 else s.pc + 2 } :=
  congrArg Host.Outcome.next (advance_skipIf s beq_iff_eq)

theorem exec_sner (x y : Reg) (s : State) :
    exec (.sner x y) s = .next { s with pc := if s.V x ≠ s.V y then s.pc + 4 else s.pc + 2 } :=
  congrArg Host.Outcome.next (advance_skipIf s bne_iff_ne)

/-! ## The obligations -/

/-- Settles O33: each skip sets PC on its comparison and nothing else; its word decodes back, and the words of buckets 5
and 9 with another low nibble are illegal. -/
theorem skipsCompareAndAdvance : Obligations.SkipsCompareAndAdvance := by
  intro x y nn s
  refine ⟨decodeWord_encode (.sei x nn), decodeWord_encode (.snei x nn), decodeWord_encode (.ser x y),
    decodeWord_encode (.sner x y), fun n hn => ⟨?bucket5, ?bucket9⟩, ?sei, ?snei, ?ser, ?sner⟩
  case bucket5 => exact (decodeWord_formatR_5 x y n).trans (decode5_of_ne_zero x y hn)
  case bucket9 => exact (decodeWord_formatR_9 x y n).trans (decode9_of_ne_zero x y hn)
  case sei => exact ⟨_, exec_sei x nn s, rfl, keptAllBut_with_pc (keptAllBut_refl s []) _⟩
  case snei => exact ⟨_, exec_snei x nn s, rfl, keptAllBut_with_pc (keptAllBut_refl s []) _⟩
  case ser => exact ⟨_, exec_ser x y s, rfl, keptAllBut_with_pc (keptAllBut_refl s []) _⟩
  case sner => exact ⟨_, exec_sner x y s, rfl, keptAllBut_with_pc (keptAllBut_refl s []) _⟩

/-- Settles O28: only PC is written, so a jump to its own address leaves the state as it was, and a PC of 0xFFF leaves
the second byte of the next fetch at 0x1000. -/
theorem jumpSetsPc : Obligations.JumpSetsPc := by
  intro nnn s
  refine ⟨decodeWord_encode (.jp nnn), _, exec_jp nnn s, toNat_addrWord nnn,
    keptAllBut_with_pc (keptAllBut_refl s []) _, fun hself => ?self,
    fun hlast hrun => step_of_pc_last hrun ((toNat_addrWord nnn).trans hlast)⟩
  case self =>
    have hpc : addrWord nnn = s.pc := BitVec.eq_of_toNat_eq ((toNat_addrWord nnn).trans hself.symm)
    rw [hpc]

/-- Settles O29: the sum fits 16 bits, so it is PC exactly, and above 0xFFE no word can be fetched from it. -/
theorem jumpWithOffsetAddsV0 : Obligations.JumpWithOffsetAddsV0 := by
  intro nnn s
  have hpc : (byteWord (s.V 0) + addrWord nnn).toNat = (s.V 0).toNat + nnn.toNat := toNat_byteWord_add_addrWord ..
  exact ⟨decodeWord_encode (.jpv0 nnn), _, exec_jpv0 nnn s, hpc, keptAllBut_with_pc (keptAllBut_refl s []) _,
    fun above hrun => step_of_pc_above hrun (hpc.symm ▸ above)⟩

/-- Settles O30, from the two outcomes of `State.push`. -/
theorem callPushesReturnAddress : Obligations.CallPushesReturnAddress := by
  refine fun nnn s => ⟨decodeWord_encode (.call nnn), fun room => ?room, exec_call_of_full nnn⟩
  case room =>
    exact ⟨_, exec_call_of_room nnn room, toNat_addrWord nnn, rfl,
      keptAllBut_with_pc (keptAllBut_with_stack s ((s.pc + 2) :: s.stack)) (addrWord nnn)⟩

/-- Settles O31, from the two outcomes of 00EE. -/
theorem returnPopsPc : Obligations.ReturnPopsPc := by
  refine fun s => ⟨decodeWord_encode .ret, fun w ws h => ?entry, exec_ret_of_stack_nil⟩
  case entry =>
    exact ⟨_, exec_ret_of_stack_cons h, rfl, rfl, keptAllBut_with_pc (keptAllBut_with_stack s ws) w⟩

end Sys2Proof.Proofs
end

section
/-! PROOFS. The register instructions that set no flag: 6XNN, 7XNN and 8XY0 to 8XY3 each write `V[X]` and advance PC
(41_alu.md R81 to R86). -/

namespace Sys2Proof.Proofs

open Sys2Proof.Machine Sys2Proof.Safety Sys2Proof.Laws

/-! ## The frame of one register write -/

/-- A register write after whatever else was changed keeps every other piece. -/
theorem keptAllBut_setV {s t : State} {changed : List Piece} (h : KeptAllBut s t changed)
    (hregs : .registers ∈ changed) (x : Reg) (b : Byte) : KeptAllBut s (t.setV x b) changed := by
  intro p hp
  cases p with
  | registers => exact absurd hregs hp
  | index | stack | delay | sound | keypad | memory | screen | random | fault | stackCap => exact h _ hp

/-- A register write after changes that touched no register keeps every register but its destination. -/
theorem registersKeptBut_setV {s t : State} (h : ∀ r, t.V r = s.V r) (x : Reg) (b : Byte) :
    RegistersKeptBut s (t.setV x b) (fun r => r = x) := by
  intro r hr
  rw [setV_V, if_neg hr, h r]

/-- The whole effect of an instruction that advances PC and writes `b` to `V[x]`. -/
theorem effect_of_exec_setV {i : Instr} {s : State} {x : Reg} {b : Byte}
    (h : exec i s = .next (s.advance.setV x b)) :
    ∃ t, exec i s = .next t ∧ t.pc = s.pc + 2 ∧ t.V x = b ∧ RegistersKeptBut s t (fun r => r = x) ∧
      KeptAllBut s t [.registers] := by
  have hadvance : KeptAllBut s s.advance [.registers] := keptAllBut_with_pc (keptAllBut_refl s _) (s.pc + 2)
  refine ⟨s.advance.setV x b, h, rfl, ?value, registersKeptBut_setV (advance_V s) x b,
    keptAllBut_setV hadvance (List.mem_singleton_self _) x b⟩
  case value => rw [setV_V, if_pos rfl]

/-! ## What each instruction answers -/

theorem exec_ldi (x : Reg) (nn : Byte) (s : State) : exec (.ldi x nn) s = .next (s.advance.setV x nn) := rfl

theorem exec_addi (x : Reg) (nn : Byte) (s : State) :
    exec (.addi x nn) s = .next (s.advance.setV x (s.V x + nn)) := rfl

theorem exec_mov (x y : Reg) (s : State) : exec (.mov x y) s = .next (s.advance.setV x (s.V y)) := rfl

theorem exec_or (x y : Reg) (s : State) : exec (.or x y) s = .next (s.advance.setV x (s.V x ||| s.V y)) := rfl

theorem exec_and (x y : Reg) (s : State) : exec (.and x y) s = .next (s.advance.setV x (s.V x &&& s.V y)) := rfl

theorem exec_xor (x y : Reg) (s : State) : exec (.xor x y) s = .next (s.advance.setV x (s.V x ^^^ s.V y)) := rfl

/-! ## The obligations -/

/-- Settles O38: each of the three writes the `BitVec` operation of the two operands, which works bit by bit. -/
theorem logicIsBitwiseWithoutFlag : Obligations.LogicIsBitwiseWithoutFlag := by
  intro x y s
  refine ⟨decodeWord_encode (.or x y), decodeWord_encode (.and x y), decodeWord_encode (.xor x y), ?or, ?and, ?xor⟩
  case or =>
    obtain ⟨t, hexec, hpc, hval, hframe⟩ := effect_of_exec_setV (exec_or x y s)
    exact ⟨t, hexec, hpc, fun k => hval ▸ BitVec.getLsbD_or, hframe⟩
  case and =>
    obtain ⟨t, hexec, hpc, hval, hframe⟩ := effect_of_exec_setV (exec_and x y s)
    exact ⟨t, hexec, hpc, fun k => hval ▸ BitVec.getLsbD_and, hframe⟩
  case xor =>
    obtain ⟨t, hexec, hpc, hval, hframe⟩ := effect_of_exec_setV (exec_xor x y s)
    exact ⟨t, hexec, hpc, fun k => hval ▸ BitVec.getLsbD_xor, hframe⟩

/-- Settles O35: the value written is the immediate itself. -/
theorem loadImmediateWritesRegister : Obligations.LoadImmediateWritesRegister := fun x nn s =>
  ⟨decodeWord_encode (.ldi x nn), effect_of_exec_setV (exec_ldi x nn s)⟩

/-- Settles O36: `BitVec 8` addition is the sum modulo 256, and nothing but `V[X]` is written, so VF is kept. -/
theorem addImmediateWrapsWithoutFlag : Obligations.AddImmediateWrapsWithoutFlag := by
  intro x nn s
  obtain ⟨t, hexec, hpc, hval, hframe⟩ := effect_of_exec_setV (exec_addi x nn s)
  exact ⟨decodeWord_encode (.addi x nn), t, hexec, hpc, hval ▸ BitVec.toNat_add .., hframe⟩

/-- Settles O37: `V[Y]` is read before `V[X]` is written, so X = Y is no special case. -/
theorem moveCopiesRegister : Obligations.MoveCopiesRegister := fun x y s =>
  ⟨decodeWord_encode (.mov x y), effect_of_exec_setV (exec_mov x y s)⟩

end Sys2Proof.Proofs
end

section
/-! PROOFS. The address register and the stores through it: ANNN and FX29 set I, FX33 stores three decimal digits
(42_index_memory.md R100, R102, R103). -/

namespace Sys2Proof.Proofs

open Sys2Proof.Machine Sys2Proof.Safety Sys2Proof.Laws

/-! ## The address register as a piece of state -/

/-- Replacing I keeps every other piece. -/
theorem keptAllBut_with_index (s : State) (w : Word) : KeptAllBut s { s with i := w } [.index] := by
  intro p hp
  cases p with
  | index => exact absurd (List.mem_singleton_self _) hp
  | registers | keypad | memory => exact fun _ => rfl
  | screen => exact fun _ _ => rfl
  | stack | delay | sound | random | fault | stackCap => rfl

/-! ## Numbers that fit the register or the byte they are kept in -/

/-- A number below `2 ^ w` is exact in `w` bits. -/
theorem toNat_ofNat_of_lt {w n : Nat} (h : n < 2 ^ w) : (BitVec.ofNat w n).toNat = n :=
  (BitVec.toNat_ofNat n w).trans (Nat.mod_eq_of_lt h)

/-- The largest glyph address is 1275, so the product fits the 16 bits of I (R102). -/
@[simp] theorem toNat_glyphAddr (b : Byte) : (glyphAddr b).toNat = b.toNat * 5 := by
  have hb : b.toNat < 256 := b.isLt
  exact toNat_ofNat_of_lt (by omega)

/-! ## A block store through I -/

/-- Byte `r` of a block store is read back at `a + r`. -/
theorem read_writeBytes_inside {m : Memory} (hm : m.wf = true) {bs : List Byte} {a r : Nat}
    (ha : a + bs.length ≤ Config.memSize) (hr : r < bs.length) : (m.writeBytes a bs).read (a + r) = bs[r] := by
  rw [read_writeBytes hm bs a ha, if_pos (Nat.le_add_right a r), Nat.add_sub_cancel_left,
    List.getElem?_eq_getElem hr, Option.getD_some]

/-! ## What each instruction answers -/

theorem exec_lda (nnn : Addr) (s : State) : exec (.lda nnn) s = .next { s.advance with i := addrWord nnn } := rfl

theorem exec_font (x : Reg) (s : State) : exec (.font x) s = .next { s.advance with i := glyphAddr (s.V x) } := rfl

theorem exec_bcd (x : Reg) (s : State) : exec (.bcd x) s = execBcd x s := rfl

/-- FX33 with its three bytes in memory stores the digits there. -/
theorem exec_bcd_of_fits (x : Reg) {s : State} (h : s.effAddr 0 + 3 ≤ Config.memSize) :
    exec (.bcd x) s =
      .next { s.advance with mem := s.mem.writeBytes (s.effAddr 0) (decimalDigits (s.V x)) } := by
  rw [exec_bcd, execBcd, memWrite_ok (.inr h), commit_ok, advance_mem]

/-- FX33 with a byte above memory is the fault, recorded in the state the instruction began in (20_memory.md R46). -/
theorem exec_bcd_of_outside (x : Reg) {s : State} (h : Config.memSize < s.effAddr 0 + 3) :
    exec (.bcd x) s =
      .next (s.takeFault (.memoryOutOfRange (max (s.effAddr 0) Config.memSize)) (some (formatI 0xF x 0x33))) := by
  rw [exec_bcd, execBcd, memWrite_error (bs := decimalDigits (s.V x)) (Nat.succ_pos 2) h, commit_error]
  rfl

/-! ## The obligations -/

/-- Settles O46: the two outcomes of the store of three bytes at I; a byte of the block reads back as its digit, and a
byte outside it as before. -/
theorem bcdStoresDecimalDigits : Obligations.BcdStoresDecimalDigits := by
  intro x s hm
  refine ⟨decodeWord_encode (.bcd x), fun inside => ?stored, fun above => ?fault⟩
  case stored =>
    have fits : s.effAddr 0 + (decimalDigits (s.V x)).length ≤ Config.memSize := (le_memSize_iff s.i.toNat 2).2 inside
    have digit (r : Nat) (hr : r < 3) :
        (s.mem.writeBytes (s.effAddr 0) (decimalDigits (s.V x))).read (s.effAddr r) = (decimalDigits (s.V x))[r] :=
      read_writeBytes_inside hm fits hr
    have hV : (s.V x).toNat < 256 := (s.V x).isLt
    refine ⟨_, exec_bcd_of_fits x fits, rfl, ?hundreds, ?tens, ?units, fun k hk => read_writeBytes_outside hm fits hk,
      keptAllBut_with_pc (keptAllBut_with_mem s _) (s.pc + 2)⟩
    case hundreds => exact (congrArg BitVec.toNat (digit 0 (by decide))).trans (toNat_ofNat_of_lt (by omega))
    case tens => exact (congrArg BitVec.toNat (digit 1 (by decide))).trans (toNat_ofNat_of_lt (by omega))
    case units => exact (congrArg BitVec.toNat (digit 2 (by decide))).trans (toNat_ofNat_of_lt (by omega))
  case fault => exact exec_bcd_of_outside x ((memSize_lt_iff s.i.toNat 2).2 above)

/-- Settles O43: the twelve bits of `NNN` fit I, which is the one piece written. -/
theorem loadAddressSetsIndex : Obligations.LoadAddressSetsIndex := fun nnn s =>
  ⟨decodeWord_encode (.lda nnn), _, exec_lda nnn s, rfl, toNat_addrWord nnn,
    keptAllBut_with_pc (keptAllBut_with_index s (addrWord nnn)) (s.pc + 2)⟩

/-- Settles O45: the product fits I, which is the one piece written. -/
theorem fontPointsAtGlyph : Obligations.FontPointsAtGlyph := fun x s =>
  ⟨decodeWord_encode (.font x), _, exec_font x s, rfl, toNat_glyphAddr (s.V x),
    keptAllBut_with_pc (keptAllBut_with_index s (glyphAddr (s.V x))) (s.pc + 2)⟩

end Sys2Proof.Proofs
end

section
/-! PROOFS. Graphics: 00E0 turns every pixel off (43_graphics.md R112). -/

namespace Sys2Proof.Proofs

open Sys2Proof.Machine Sys2Proof.Safety Sys2Proof.Laws

/-- Replacing the framebuffer after whatever else was changed keeps every other piece. -/
theorem keptAllBut_with_fb {s t : State} {changed : List Piece} (h : KeptAllBut s t changed)
    (hscreen : .screen ∈ changed) (fb : Framebuffer) : KeptAllBut s { t with fb := fb } changed := by
  intro p hp
  cases p with
  | screen => exact absurd hscreen hp
  | registers | index | stack | delay | sound | keypad | memory | random | fault | stackCap => exact h _ hp

theorem exec_cls (s : State) : exec .cls s = .next { s.advance with fb := Framebuffer.off } := rfl

/-- Settles O50: the new framebuffer is the one with every pixel off, and it is the one piece written. -/
theorem clearTurnsEveryPixelOff : Obligations.ClearTurnsEveryPixelOff := by
  intro s
  have hadvance : KeptAllBut s s.advance [.screen] := keptAllBut_with_pc (keptAllBut_refl s _) (s.pc + 2)
  exact ⟨decodeWord_encode .cls, _, exec_cls s, rfl, pixel_off,
    keptAllBut_with_fb hadvance (List.mem_singleton_self _) Framebuffer.off⟩

end Sys2Proof.Proofs
end

section
/-! PROOFS. The keypad wait FX0A and the timer instructions FX07, FX15 and FX18 (44_keypad_timers.md R122 to R125). -/

namespace Sys2Proof.Proofs

open Sys2Proof.Machine Sys2Proof.Safety Sys2Proof.Laws

/-! ## The timers as pieces of state -/

/-- Replacing DT keeps every other piece. -/
theorem keptAllBut_with_dt (s : State) (b : Byte) : KeptAllBut s { s with dt := b } [.delay] := by
  intro p hp
  cases p with
  | delay => exact absurd (List.mem_singleton_self _) hp
  | registers | index | stack | sound | keypad | memory | screen | random | fault | stackCap =>
    exact keptAllBut_refl s _ _ hp

/-- Replacing ST keeps every other piece. -/
theorem keptAllBut_with_st (s : State) (b : Byte) : KeptAllBut s { s with st := b } [.sound] := by
  intro p hp
  cases p with
  | sound => exact absurd (List.mem_singleton_self _) hp
  | registers | index | stack | delay | keypad | memory | screen | random | fault | stackCap =>
    exact keptAllBut_refl s _ _ hp

/-! ## The smallest pressed key -/

/-- A pressed key with no pressed key below it is the one the search finds. -/
theorem lowestKey_of_smallest {s : State} {k : Nibble} (hon : s.key k = true)
    (hoff : ∀ j : Nibble, j.toNat < k.toNat → s.key j = false) : s.lowestKey = some k.toNat := by
  cases hfound : s.lowestKey with
  | none => exact absurd ((lowestKey_eq_none.1 hfound k).symm.trans hon) Bool.false_ne_true
  | some n =>
    obtain ⟨hn, hnOn, hnOff⟩ := lowestKey_eq_some hfound
    rcases Nat.lt_trichotomy n k.toNat with below | same | above
    · have hnOffToo : s.key (BitVec.ofNat 4 n) = false := hoff _ ((toNat_ofNat_of_lt hn).trans_lt below)
      exact absurd (hnOffToo.symm.trans hnOn) Bool.false_ne_true
    · rw [same]
    · exact absurd ((hnOff k above).symm.trans hon) Bool.false_ne_true

/-! ## What each instruction answers -/

theorem exec_getdt (x : Reg) (s : State) : exec (.getdt x) s = .next (s.advance.setV x s.dt) := rfl

theorem exec_setdt (x : Reg) (s : State) : exec (.setdt x) s = .next { s.advance with dt := s.V x } := rfl

theorem exec_setst (x : Reg) (s : State) : exec (.setst x) s = .next { s.advance with st := s.V x } := rfl

theorem exec_waitk (x : Reg) (s : State) : exec (.waitk x) s = execWaitk x s := rfl

/-- FX0A with no key pressed: the step back of PC undoes the advance, also where the advance wraps. -/
theorem exec_waitk_of_no_key (x : Reg) {s : State} (h : ∀ k, s.key k = false) : exec (.waitk x) s = .next s := by
  have hpc : s.advance.pc - 2 = s.pc := BitVec.add_sub_cancel ..
  rw [exec_waitk, execWaitk, lowestKey_eq_none.2 h, hpc]
  rfl

/-- FX0A with `k` the smallest pressed key is a write of `k` to `V[X]`. -/
theorem exec_waitk_of_smallest (x : Reg) {s : State} {k : Nibble} (hon : s.key k = true)
    (hoff : ∀ j : Nibble, j.toNat < k.toNat → s.key j = false) :
    exec (.waitk x) s = .next (s.advance.setV x (BitVec.ofNat 8 k.toNat)) := by
  rw [exec_waitk, execWaitk, lowestKey_of_smallest hon hoff]

/-! ## The obligations -/

/-- Settles O55, from the two outcomes of the search for the smallest pressed key; a key code fits a byte. -/
theorem waitKeyRepeatsUntilPressed : Obligations.WaitKeyRepeatsUntilPressed := by
  refine fun x s => ⟨decodeWord_encode (.waitk x), exec_waitk_of_no_key x, fun k hon hoff => ?pressed⟩
  case pressed =>
    obtain ⟨t, hexec, hpc, hval, hframe⟩ := effect_of_exec_setV (exec_waitk_of_smallest x hon hoff)
    have hk : k.toNat < 2 ^ 8 := k.isLt.trans (by decide)
    exact ⟨t, hexec, hpc, hval ▸ toNat_ofNat_of_lt hk, hframe⟩

/-- Settles O56: FX07 is one register write, FX15 and FX18 each write one timer. -/
theorem timerInstructionsCopyTimers : Obligations.TimerInstructionsCopyTimers := by
  refine fun x s => ⟨decodeWord_encode (.getdt x), decodeWord_encode (.setdt x), decodeWord_encode (.setst x),
    effect_of_exec_setV (exec_getdt x s), ?setdt, ?setst⟩
  case setdt =>
    exact ⟨_, exec_setdt x s, rfl, rfl, keptAllBut_with_pc (keptAllBut_with_dt s (s.V x)) (s.pc + 2)⟩
  case setst =>
    exact ⟨_, exec_setst x s, rfl, rfl, keptAllBut_with_pc (keptAllBut_with_st s (s.V x)) (s.pc + 2)⟩

end Sys2Proof.Proofs
end

section
/-! PROOFS. The host events of a booted core: TICK, KEY_SET and FB_SNAPSHOT (60_exceptions.md R144, R146, R148). -/

namespace Sys2Proof.Proofs

open Sys2Proof.Machine Sys2Proof.Safety Sys2Proof.Laws

/-! ## Frames -/

/-- Of two changes in a row, what both keep is kept. -/
theorem keptAllBut_trans {s t u : State} {first second : List Piece} (hst : KeptAllBut s t first)
    (htu : KeptAllBut t u second) : KeptAllBut s u (first ++ second) := by
  intro p hp
  have kept₁ : Kept s t p := hst p (mt (List.mem_append_left second) hp)
  have kept₂ : Kept t u p := htu p (mt (List.mem_append_right first) hp)
  cases p with
  | registers | keypad | memory => exact fun k => (kept₂ k).trans (kept₁ k)
  | screen => exact fun x y => (kept₂ x y).trans (kept₁ x y)
  | index | stack | delay | sound | random | fault | stackCap => exact kept₂.trans kept₁

/-- Replacing the keypad keeps every other piece. -/
theorem keptAllBut_with_keys (s : State) (keys : Vector Bool 16) :
    KeptAllBut s { s with keys := keys } [.keypad] := by
  intro p hp
  cases p with
  | keypad => exact absurd (List.mem_singleton_self _) hp
  | registers | index | stack | delay | sound | memory | screen | random | fault | stackCap =>
    exact keptAllBut_refl s _ _ hp

/-! ## What TICK and KEY_SET answer -/

theorem halted_of_fault {s : State} (h : s.fault ≠ none) : s.halted = true :=
  Bool.eq_true_of_not_eq_false (mt halted_eq_false.1 h)

theorem not_halted_of_no_fault {s : State} (h : s.fault = none) : ¬ s.halted = true :=
  ne_true_of_eq_false (halted_eq_false.2 h)

theorem tick_of_fault {s : State} (h : s.fault ≠ none) : s.tick = s := if_pos (halted_of_fault h)

theorem tick_of_no_fault {s : State} (h : s.fault = none) :
    s.tick = { s with dt := countDown s.dt, st := countDown s.st } := if_neg (not_halted_of_no_fault h)

theorem keySet_of_fault {s : State} (h : s.fault ≠ none) (k : Nibble) (pressed : Bool) : s.keySet k pressed = s :=
  if_pos (halted_of_fault h)

theorem keySet_of_no_fault {s : State} (h : s.fault = none) (k : Nibble) (pressed : Bool) :
    s.keySet k pressed = { s with keys := s.keys.set k.toNat pressed } := if_neg (not_halted_of_no_fault h)

/-- The clamp at 0 is the one of the subtraction of natural numbers. -/
theorem toNat_countDown (b : Byte) : (countDown b).toNat = b.toNat - 1 := by
  rw [countDown]
  split
  case isTrue pos => exact BitVec.toNat_sub_of_le (BitVec.le_def.2 pos)
  case isFalse zero => omega

/-- A key after one entry of the keypad is replaced; two key codes name the same entry only if they are equal. -/
theorem key_with_keys_set (s : State) (k j : Nibble) (pressed : Bool) :
    ({ s with keys := s.keys.set k.toNat pressed } : State).key j = if j = k then pressed else s.key j := by
  by_cases same : j = k
  · subst same
    exact (Vector.getElem_set_self _).trans (if_pos rfl).symm
  · have other : k.toNat ≠ j.toNat := fun e => same (BitVec.eq_of_toNat_eq e.symm)
    exact (Vector.getElem_set_ne k.isLt _ other).trans (if_neg same).symm

/-! ## The obligations -/

/-- Settles O20: a running core counts each timer down by itself, and they are the two pieces written. -/
theorem tickCountsBothTimersDown : Obligations.TickCountsBothTimersDown := by
  refine fun s => ⟨tick_of_fault, fun running => ?running⟩
  case running =>
    rw [tick_of_no_fault running]
    exact ⟨toNat_countDown s.dt, toNat_countDown s.st, rfl,
      keptAllBut_trans (keptAllBut_with_dt s (countDown s.dt)) (keptAllBut_with_st _ (countDown s.st))⟩

/-- Settles O22: a running core replaces one entry of the keypad, the one piece written. -/
theorem keySetWritesOneKey : Obligations.KeySetWritesOneKey := by
  refine fun s k pressed => ⟨fun fault => keySet_of_fault fault k pressed, fun running => ?running⟩
  case running =>
    rw [keySet_of_no_fault running]
    exact ⟨fun j => key_with_keys_set s k j pressed, rfl, keptAllBut_with_keys s _⟩

/-- Settles O23: on a booted core the handler reads the framebuffer without a look at the fault record, so this holds by
definition. -/
theorem snapshotReturnsFramebuffer : Obligations.SnapshotReturnsFramebuffer := fun _ => rfl

end Sys2Proof.Proofs
end

section
/-! PROOFS. The codec's round trips (30_encoding.md sections 1 and 4), and the words the decoder refuses, group by group
(section 3). -/

namespace Sys2Proof.Proofs

open Sys2Proof.Laws

/-! ## The two bytes of an instruction -/

/-- The decoder reads an instruction off the front of any bytes that begin with its own two. -/
theorem decode_encodeBytes_append (i : Instr) (rest : List Byte) : decode (encodeBytes i ++ rest) = .ok (i, rest) := by
  rw [encodeBytes, List.cons_append, List.cons_append, List.nil_append, decode, wordOfBytes_highByte_lowByte,
    decodeWord_encode]

/-! ## The refusals of each bucket (R57) -/

theorem decode0_eq_error_iff (nnn : Addr) (e : DecodeError) :
    decode0 nnn = .error e ↔ e = .bucket0 ∧ nnn.toNat ≠ 0x0E0 ∧ nnn.toNat ≠ 0x0EE := by
  unfold decode0
  split <;> simp_all [eq_comm]

theorem decode5_eq_error_iff (x y : Reg) (n : Nibble) (e : DecodeError) :
    decode5 x y n = .error e ↔ e = .bucket5 ∧ n.toNat ≠ 0 := by
  unfold decode5
  split <;> simp_all [eq_comm]

theorem decode8_eq_error_iff (x y : Reg) (n : Nibble) (e : DecodeError) :
    decode8 x y n = .error e ↔ e = .bucket8 ∧ n.toNat ∈ [0x8, 0x9, 0xA, 0xB, 0xC, 0xD, 0xF] := by
  have hn : n.toNat < 16 := n.isLt
  unfold decode8
  split
  case h_10 =>
    have unused : n.toNat ∈ [0x8, 0x9, 0xA, 0xB, 0xC, 0xD, 0xF] := by
      simp only [imp_false, List.mem_cons, List.not_mem_nil] at *
      omega
    simp [unused, eq_comm]
  all_goals simp_all

theorem decode9_eq_error_iff (x y : Reg) (n : Nibble) (e : DecodeError) :
    decode9 x y n = .error e ↔ e = .bucket9 ∧ n.toNat ≠ 0 := by
  unfold decode9
  split <;> simp_all [eq_comm]

theorem decodeE_eq_error_iff (x : Reg) (nn : Byte) (e : DecodeError) :
    decodeE x nn = .error e ↔ e = .bucketE ∧ nn.toNat ∉ [0x9E, 0xA1] := by
  unfold decodeE
  split <;> simp_all [eq_comm]

theorem decodeF_eq_error_iff (x : Reg) (nn : Byte) (e : DecodeError) :
    decodeF x nn = .error e ↔
      e = .bucketF ∧ nn.toNat ∉ [0x07, 0x0A, 0x15, 0x18, 0x1E, 0x29, 0x33, 0x55, 0x65] := by
  unfold decodeF
  split <;> simp_all [eq_comm]

/-! ## The six groups together -/

/-- The group of illegal words each decoding error names. -/
def InIllegalGroup (w : Word) : DecodeError → Prop
  | .truncated => False
  | .bucket0 => (nibble1 w).toNat = 0x0 ∧ (fieldNNN w).toNat ≠ 0x0E0 ∧ (fieldNNN w).toNat ≠ 0x0EE
  | .bucket5 => (nibble1 w).toNat = 0x5 ∧ (fieldN w).toNat ≠ 0
  | .bucket8 => (nibble1 w).toNat = 0x8 ∧ (fieldN w).toNat ∈ [0x8, 0x9, 0xA, 0xB, 0xC, 0xD, 0xF]
  | .bucket9 => (nibble1 w).toNat = 0x9 ∧ (fieldN w).toNat ≠ 0
  | .bucketE => (nibble1 w).toNat = 0xE ∧ (fieldNN w).toNat ∉ [0x9E, 0xA1]
  | .bucketF => (nibble1 w).toNat = 0xF ∧
      (fieldNN w).toNat ∉ [0x07, 0x0A, 0x15, 0x18, 0x1E, 0x29, 0x33, 0x55, 0x65]

/-- The primary dispatch leads a word to the bucket whose group it can be in, and to no other. -/
theorem decodeWord_eq_error_iff (w : Word) (e : DecodeError) : decodeWord w = .error e ↔ InIllegalGroup w e := by
  have hlt : (nibble1 w).toNat < 16 := (nibble1 w).isLt
  unfold decodeWord
  split
  case h_16 =>
    have hk : (nibble1 w).toNat = 0xF := by
      simp only [imp_false] at *
      omega
    cases e <;> simp [InIllegalGroup, hk, decodeF_eq_error_iff]
  all_goals
    next hk =>
      cases e <;> simp [InIllegalGroup, hk, decode0_eq_error_iff, decode5_eq_error_iff, decode8_eq_error_iff,
        decode9_eq_error_iff, decodeE_eq_error_iff]

/-! ## The obligations -/

/-- Settles O2, from the word's round trip and its two bytes. -/
theorem decodeOfEncodedInstruction : Obligations.DecodeOfEncodedInstruction := fun i rest =>
  ⟨decodeWord_encode i, decode_encodeBytes_append i rest⟩

/-- Settles O3: each bucket's accepted words are put together again from the fields the decoder read. -/
theorem encodeOfDecodedWord : Obligations.EncodeOfDecodedWord := fun _ _ => encode_of_decodeWord

/-- Settles O5: the six groups, one error each. -/
theorem illegalWordsAreTheSixGroups : Obligations.IllegalWordsAreTheSixGroups := fun w =>
  have group := decodeWord_eq_error_iff w
  ⟨group .bucket0, group .bucket5, group .bucket8, group .bucket9, group .bucketE, group .bucketF,
    (group .truncated).1⟩

/-- Settles O6, by evaluation of the decoder. -/
theorem sampleWordsDecodeAsSpecified : Obligations.SampleWordsDecodeAsSpecified :=
  ⟨rfl, rfl, rfl, rfl, rfl, rfl, rfl, rfl, rfl, rfl⟩

end Sys2Proof.Proofs
end

section
/-! PROOFS. The flag instructions 8XY4 to 8XY7 and 8XYE, and the masked draw CXNN (41_alu.md R87 to R92). -/

namespace Sys2Proof.Proofs

open Sys2Proof.Machine Sys2Proof.Safety Sys2Proof.Laws

/-! ## The frame of the flag instructions' two writes -/

theorem keptAllBut_advance (s : State) (changed : List Piece) : KeptAllBut s s.advance changed :=
  keptAllBut_with_pc (keptAllBut_refl s changed) (s.pc + 2)

theorem keptAllBut_writeFlagged {s t : State} {changed : List Piece} (h : KeptAllBut s t changed)
    (hregs : .registers ∈ changed) (x : Reg) (flag : Bool) (b : Byte) :
    KeptAllBut s (t.writeFlagged x flag b) changed :=
  keptAllBut_setV (keptAllBut_setV h hregs regF (flagByte flag)) hregs x b

/-- PC advanced, VF and then `V[x]` written: whatever the numbers `f` and `n` are that the flag and the result stand for,
this is what a flag instruction has to leave. -/
theorem flaggedResult_advance_writeFlagged (s : State) (x : Reg) {flag : Bool} {b : Byte} {f n : Nat}
    (hflag : (flagByte flag).toNat = f) (hresult : b.toNat = n) :
    FlaggedResult s (s.advance.writeFlagged x flag b) x f n where
  pc := rfl
  result := by rw [writeFlagged_V, if_pos rfl, hresult]
  flag hx := by rw [writeFlagged_V, if_neg hx.symm, if_pos rfl, hflag]
  registers r hr := by
    obtain ⟨hrx, hrF⟩ := not_or.1 hr
    rw [writeFlagged_V, if_neg hrx, if_neg hrF, advance_V]
  rest := keptAllBut_writeFlagged (keptAllBut_advance s _) (List.mem_singleton_self _) x flag b

/-! ## The flags as numbers -/

theorem toNat_flagByte (flag : Bool) : (flagByte flag).toNat = flag.toNat := by cases flag <;> rfl

theorem toNat_flagByte_carry (a b : Byte) :
    (flagByte (carry a b)).toNat = if 255 < a.toNat + b.toNat then 1 else 0 := by
  rw [toNat_flagByte, carry]
  by_cases exceeds : 255 < a.toNat + b.toNat <;> simp [exceeds]

/-- The flag of a subtraction is 0 exactly on a borrow. -/
theorem toNat_flagByte_noBorrow (a b : Byte) : (flagByte (noBorrow a b)).toNat = if a.toNat < b.toNat then 0 else 1 := by
  rw [toNat_flagByte, noBorrow]
  by_cases borrow : a.toNat < b.toNat <;> simp [borrow]

theorem toNat_flagByte_lowBit (a : Byte) : (flagByte (lowBit a)).toNat = a.toNat % 2 := by
  rw [toNat_flagByte, lowBit, BitVec.getLsbD, Nat.toNat_testBit, Nat.pow_zero, Nat.div_one]

/-- Bit 7 is the top bit, so the quotient by 128 is the bit itself. -/
theorem toNat_flagByte_highBit (a : Byte) : (flagByte (highBit a)).toNat = a.toNat / 128 := by
  have ha : a.toNat < 256 := a.isLt
  rw [toNat_flagByte, highBit, BitVec.getLsbD, Nat.toNat_testBit]
  omega

/-! ## The results as numbers (R93) -/

theorem toNat_sub_byte (a b : Byte) : (a - b).toNat = (a.toNat + 256 - b.toNat) % 256 := by
  have hb : b.toNat < 256 := b.isLt
  rw [BitVec.toNat_sub]
  omega

theorem toNat_shiftRight_one (a : Byte) : (a >>> 1).toNat = a.toNat / 2 := by
  rw [BitVec.toNat_ushiftRight, Nat.shiftRight_eq_div_pow, Nat.pow_one]

theorem toNat_shiftLeft_one (a : Byte) : (a <<< 1).toNat = 2 * a.toNat % 256 := by
  rw [BitVec.toNat_shiftLeft, Nat.shiftLeft_eq, Nat.pow_one, Nat.mul_comm]

/-! ## What each instruction answers -/

theorem exec_add (x y : Reg) (s : State) :
    exec (.add x y) s = .next (s.advance.writeFlagged x (carry (s.V x) (s.V y)) (s.V x + s.V y)) := rfl

theorem exec_sub (x y : Reg) (s : State) :
    exec (.sub x y) s = .next (s.advance.writeFlagged x (noBorrow (s.V x) (s.V y)) (s.V x - s.V y)) := rfl

theorem exec_shr (x y : Reg) (s : State) :
    exec (.shr x y) s = .next (s.advance.writeFlagged x (lowBit (s.V x)) (s.V x >>> 1)) := rfl

theorem exec_subn (x y : Reg) (s : State) :
    exec (.subn x y) s = .next (s.advance.writeFlagged x (noBorrow (s.V y) (s.V x)) (s.V y - s.V x)) := rfl

theorem exec_shl (x y : Reg) (s : State) :
    exec (.shl x y) s = .next (s.advance.writeFlagged x (highBit (s.V x)) (s.V x <<< 1)) := rfl

theorem exec_rnd (x : Reg) (nn : Byte) (s : State) :
    exec (.rnd x nn) s =
      .next (s.advance.drawByte.2.setV x (Config.randomByte s.rng.seeding s.rng.drawn &&& nn)) := rfl

/-- Drawing a byte after whatever else was changed keeps every piece but the random source. -/
theorem keptAllBut_drawByte {s t : State} {changed : List Piece} (h : KeptAllBut s t changed)
    (hrandom : .random ∈ changed) : KeptAllBut s t.drawByte.2 changed := by
  intro p hp
  cases p with
  | random => exact absurd hrandom hp
  | registers | index | stack | delay | sound | keypad | memory | screen | fault | stackCap => exact h _ hp

/-- What CXNN leaves: the registers and the random source are the two pieces written. -/
theorem keptAllBut_rnd (s : State) (x : Reg) (b : Byte) :
    KeptAllBut s (s.advance.drawByte.2.setV x b) [.registers, .random] :=
  keptAllBut_setV (keptAllBut_drawByte (keptAllBut_advance s _) (by decide)) (by decide) x b

/-! ## The obligations -/

/-- Settles O39: the carry is the exact sum's test against 255, and `BitVec 8` addition is the sum modulo 256. -/
theorem addSetsCarry : Obligations.AddSetsCarry := fun x y s =>
  ⟨decodeWord_encode (.add x y), _, exec_add x y s,
    flaggedResult_advance_writeFlagged s x (toNat_flagByte_carry ..) (BitVec.toNat_add ..)⟩

/-- Settles O40: one lemma on differences and one on borrows, used in the two orders of the operands. -/
theorem subtractionsClearFlagOnBorrow : Obligations.SubtractionsClearFlagOnBorrow := by
  refine fun x y s => ⟨decodeWord_encode (.sub x y), decodeWord_encode (.subn x y), ?sub, ?subn⟩
  case sub =>
    exact ⟨_, exec_sub x y s,
      flaggedResult_advance_writeFlagged s x (toNat_flagByte_noBorrow ..) (toNat_sub_byte ..)⟩
  case subn =>
    exact ⟨_, exec_subn x y s,
      flaggedResult_advance_writeFlagged s x (toNat_flagByte_noBorrow ..) (toNat_sub_byte ..)⟩

/-- Settles O41: the bit that is shifted out is the remainder by 2 in one direction, the quotient by 128 in the other. -/
theorem shiftsMoveLostBitToFlag : Obligations.ShiftsMoveLostBitToFlag := by
  refine fun x y s => ⟨decodeWord_encode (.shr x y), decodeWord_encode (.shl x y), ?shr, ?shl⟩
  case shr =>
    exact ⟨_, exec_shr x y s,
      flaggedResult_advance_writeFlagged s x (toNat_flagByte_lowBit _) (toNat_shiftRight_one _)⟩
  case shl =>
    exact ⟨_, exec_shl x y s,
      flaggedResult_advance_writeFlagged s x (toNat_flagByte_highBit _) (toNat_shiftLeft_one _)⟩

/-- Settles O42: the byte drawn is masked bit by bit and written to `V[X]`, and the source moves on by one. -/
theorem randomByteIsMaskedDraw : Obligations.RandomByteIsMaskedDraw := by
  intro x nn s
  refine ⟨decodeWord_encode (.rnd x nn), _, exec_rnd x nn s, rfl, fun k => ?bits, rfl,
    registersKeptBut_setV (fun _ => rfl) x _, keptAllBut_rnd s x _⟩
  case bits => rw [setV_V, if_pos rfl, BitVec.getLsbD_and]

end Sys2Proof.Proofs
end

section
/-! PROOFS. Register blocks through I, FX55 and FX65, and the sum FX1E adds to I (42_index_memory.md R101, R104, R105). -/

namespace Sys2Proof.Proofs

open Sys2Proof.Machine Sys2Proof.Safety Sys2Proof.Laws

/-! ## Frames -/

/-- Loading a block of registers keeps every other piece. -/
theorem keptAllBut_setRegBlock (s : State) (bs : List Byte) : KeptAllBut s (s.setRegBlock bs) [.registers] := by
  intro p hp
  cases p with
  | registers => exact absurd (List.mem_singleton_self _) hp
  | index | stack | delay | sound | keypad | memory | screen | random | fault | stackCap =>
    exact keptAllBut_refl s _ _ hp

/-- What FX55 leaves: memory and I are the two pieces written. -/
theorem keptAllBut_stm (s : State) (m : Memory) (n : Nat) :
    KeptAllBut s (({ s.advance with mem := m } : State).bumpI n) [.memory, .index] :=
  keptAllBut_with_pc (keptAllBut_trans (keptAllBut_with_mem s m) (keptAllBut_with_index _ _)) (s.pc + 2)

/-- What FX65 leaves: the registers and I are the two pieces written. -/
theorem keptAllBut_ldm (s : State) (bs : List Byte) (n : Nat) :
    KeptAllBut s ((s.advance.setRegBlock bs).bumpI n) [.registers, .index] :=
  keptAllBut_with_pc (keptAllBut_trans (keptAllBut_setRegBlock s bs) (keptAllBut_with_index _ _)) (s.pc + 2)

/-! ## The address register after a block -/

/-- A block inside memory ends at 0x1000 at most, so I moves past it without a wrap (decision D14). -/
theorem toNat_bumpI_blockLength (s : State) (x : Reg) (h : s.i.toNat + x.toNat ≤ 0xFFF) :
    (s.bumpI (blockLength x)).i.toNat = s.i.toNat + x.toNat + 1 := by
  rw [bumpI_i, BitVec.toNat_add, BitVec.toNat_ofNat, blockLength]
  omega

/-! ## Register blocks -/

theorem lt_blockLength_iff {k : Nat} {x : Reg} : k < blockLength x ↔ k ≤ x.toNat := Nat.lt_succ_iff

theorem blockLength_pos (x : Reg) : 0 < blockLength x := Nat.succ_pos _

/-- Value `r` of the block V0 to Vx, as an element of the list. -/
theorem getElem_regBlock (s : State) {x r : Reg} (h : r.toNat ≤ x.toNat)
    (hr : r.toNat < (s.regBlock x).length) : (s.regBlock x)[r.toNat] = s.V r := by
  rw [← Option.some_inj, ← List.getElem?_eq_getElem hr]
  exact getElem?_regBlock s x r h

/-- Registers loaded from a block of memory: up to `Vx` the bytes there, above it what they held. -/
theorem setRegBlock_readBytes_V (s : State) (m : Memory) (a : Nat) (x r : Reg) :
    (s.setRegBlock (m.readBytes a (blockLength x))).V r = if r.toNat ≤ x.toNat then m.read (a + r.toNat) else s.V r := by
  rw [setRegBlock_V, getElem?_readBytes]
  simp only [lt_blockLength_iff]
  split
  · rw [Option.getD_some]
  · rw [Option.getD_none]

/-! ## What each instruction answers -/

theorem exec_adda (x : Reg) (s : State) :
    exec (.adda x) s = .next { s.advance with i := s.i + byteWord (s.V x) } := rfl

theorem exec_stm (x : Reg) (s : State) : exec (.stm x) s = execStm x s := rfl

theorem exec_ldm (x : Reg) (s : State) : exec (.ldm x) s = execLdm x s := rfl

theorem exec_stm_of_fits (x : Reg) {s : State} (h : s.effAddr 0 + blockLength x ≤ Config.memSize) :
    exec (.stm x) s =
      .next (({ s.advance with mem := s.mem.writeBytes (s.effAddr 0) (s.regBlock x) } : State).bumpI
        (blockLength x)) := by
  have fits : s.effAddr 0 + (s.regBlock x).length ≤ Config.memSize := (length_regBlock s x).symm ▸ h
  rw [exec_stm, execStm, memWrite_ok (.inr fits)]
  rfl

/-- FX55 with a byte of its block above memory is the fault, and no byte is stored (20_memory.md R46). -/
theorem exec_stm_of_outside (x : Reg) {s : State} (h : Config.memSize < s.effAddr 0 + blockLength x) :
    exec (.stm x) s =
      .next (s.takeFault (.memoryOutOfRange (max (s.effAddr 0) Config.memSize)) (some (formatI 0xF x 0x55))) := by
  have outside : Config.memSize < s.effAddr 0 + (s.regBlock x).length := (length_regBlock s x).symm ▸ h
  have nonempty : 0 < (s.regBlock x).length := (length_regBlock s x).symm ▸ blockLength_pos x
  rw [exec_stm, execStm, memWrite_error nonempty outside]
  rfl

theorem exec_ldm_of_fits (x : Reg) {s : State} (h : s.effAddr 0 + blockLength x ≤ Config.memSize) :
    exec (.ldm x) s =
      .next ((s.advance.setRegBlock (s.mem.readBytes (s.effAddr 0) (blockLength x))).bumpI (blockLength x)) := by
  rw [exec_ldm, execLdm, memRead_ok (.inr h)]
  rfl

/-- FX65 with a byte of its block above memory is the fault, and no register is loaded (20_memory.md R46). -/
theorem exec_ldm_of_outside (x : Reg) {s : State} (h : Config.memSize < s.effAddr 0 + blockLength x) :
    exec (.ldm x) s =
      .next (s.takeFault (.memoryOutOfRange (max (s.effAddr 0) Config.memSize)) (some (formatI 0xF x 0x65))) := by
  rw [exec_ldm, execLdm, memRead_error (blockLength_pos x) h]
  rfl

/-! ## The obligations -/

/-- Settles O44: `BitVec 16` addition is the sum modulo 65536, and I is the one piece written. -/
theorem addToIndexWrapsAt16Bits : Obligations.AddToIndexWrapsAt16Bits := by
  intro x s
  refine ⟨decodeWord_encode (.adda x), _, exec_adda x s, rfl, ?sum,
    keptAllBut_with_pc (keptAllBut_with_index s _) (s.pc + 2)⟩
  case sum => exact (BitVec.toNat_add ..).trans (by rw [toNat_byteWord])

/-- Settles O47: the two outcomes of the store; byte `r` of the block reads back as register `r`. -/
theorem storeRegistersWritesBlock : Obligations.StoreRegistersWritesBlock := by
  intro x s hm
  have hlength : (s.regBlock x).length = x.toNat + 1 := length_regBlock s x
  refine ⟨decodeWord_encode (.stm x), fun inside => ?stored, fun above => ?fault⟩
  case stored =>
    have fits : s.effAddr 0 + (x.toNat + 1) ≤ Config.memSize := (le_memSize_iff s.i.toNat x.toNat).2 inside
    have fitsBlock : s.effAddr 0 + (s.regBlock x).length ≤ Config.memSize := hlength.symm ▸ fits
    refine ⟨_, exec_stm_of_fits x fits, rfl, toNat_bumpI_blockLength _ x inside, fun r hr => ?byte,
      fun k hk => ?outside, keptAllBut_stm s _ _⟩
    case byte =>
      have hrBlock : r.toNat < (s.regBlock x).length := by omega
      exact (read_writeBytes_inside hm fitsBlock hrBlock).trans (getElem_regBlock s hr hrBlock)
    case outside => exact read_writeBytes_outside hm fitsBlock (hlength.symm ▸ hk)
  case fault => exact exec_stm_of_outside x ((memSize_lt_iff s.i.toNat x.toNat).2 above)

/-- Settles O48: the two outcomes of the load; register `r` of the block is the byte at `I + r`. -/
theorem loadRegistersReadsBlock : Obligations.LoadRegistersReadsBlock := by
  intro x s
  refine ⟨decodeWord_encode (.ldm x), fun inside => ?loaded, fun above => ?fault⟩
  case loaded =>
    have fits : s.effAddr 0 + blockLength x ≤ Config.memSize := (le_memSize_iff s.i.toNat x.toNat).2 inside
    refine ⟨_, exec_ldm_of_fits x fits, rfl, toNat_bumpI_blockLength _ x inside, fun r hr => ?register,
      fun r hr => ?kept, keptAllBut_ldm s _ _⟩
    case register => exact (setRegBlock_readBytes_V ..).trans (if_pos hr)
    case kept => exact (setRegBlock_readBytes_V ..).trans (if_neg hr)
  case fault => exact exec_ldm_of_outside x ((memSize_lt_iff s.i.toNat x.toNat).2 above)

/-- Settles O49: the load finds at `I + r` the byte the store left there, register `r`, and both move I by the same sum. -/
theorem loadRestoresStoredRegisters : Obligations.LoadRestoresStoredRegisters := by
  intro x s t u hm inside hstore hmem hi
  obtain ⟨-, stored, -⟩ := storeRegistersWritesBlock x s hm
  obtain ⟨t', hstore', -, hIndex, hbytes, -⟩ := stored inside
  cases hstore.symm.trans hstore'
  obtain ⟨-, loaded, -⟩ := loadRegistersReadsBlock x u
  obtain ⟨v, hload, -, hIndex', hregs, -⟩ := loaded (hi ▸ inside)
  have haddr (k : Nat) : u.effAddr k = s.effAddr k := by rw [State.effAddr, hi, State.effAddr]
  refine ⟨v, hload, fun r hr => ?restored, BitVec.eq_of_toNat_eq ?index⟩
  case restored => rw [hregs r hr, hmem, haddr, hbytes r hr]
  case index => rw [hIndex', hi, hIndex]

end Sys2Proof.Proofs
end

section
/-! PROOFS. Drawing: DXYN toggles what its sprite covers, or takes the first fault in the order of the checks
(43_graphics.md R111, R113; 60_exceptions.md R139). -/

namespace Sys2Proof.Proofs

open Sys2Proof.Machine Sys2Proof.Safety Sys2Proof.Laws

/-! ## The positions DXYN toggles -/

/-- The positions of the set bits of the sprite at I, drawn at (`V[x]`, `V[y]`), in the order they are toggled in. -/
def drawnPixels (s : State) (x y : Reg) (n : Nibble) : List (Nat × Nat) :=
  spritePixels (s.V x).toNat (s.V y).toNat (s.mem.readBytes (s.effAddr 0) n.toNat)

theorem getElem?_readBytes_eq_some_iff (m : Memory) (a n r : Nat) (b : Byte) :
    (m.readBytes a n)[r]? = some b ↔ r < n ∧ m.read (a + r) = b := by
  rw [getElem?_readBytes]
  split <;> simp [*]

/-- A set bit of a sprite byte in memory is a set bit of the block DXYN reads. -/
theorem spriteBit_iff (s : State) (n r c : Nat) :
    SpriteBit s n r c ↔
      ∃ b, (s.mem.readBytes (s.effAddr 0) n)[r]? = some b ∧ c < 8 ∧ b.getLsbD (7 - c) = true := by
  simp only [getElem?_readBytes_eq_some_iff]
  constructor
  · rintro ⟨hr, hc, hbit⟩
    exact ⟨_, ⟨hr, rfl⟩, hc, hbit⟩
  · rintro ⟨_, ⟨hr, rfl⟩, hc, hbit⟩
    exact ⟨hr, hc, hbit⟩

theorem mem_drawnPixels (s : State) (x y : Reg) (n : Nibble) (px py : Nat) :
    (px, py) ∈ drawnPixels s x y n ↔ SpriteCovers s n.toNat (s.V x).toNat (s.V y).toNat px py := by
  rw [drawnPixels, mem_spritePixels]
  constructor
  · rintro ⟨r, b, hb, hpy, c, hc, hbit, hpx⟩
    exact ⟨r, c, (spriteBit_iff ..).2 ⟨b, hb, hc, hbit⟩, hpx, hpy⟩
  · rintro ⟨r, c, hset, hpx, hpy⟩
    obtain ⟨b, hb, hc, hbit⟩ := (spriteBit_iff ..).1 hset
    exact ⟨r, b, hb, hpy, c, hc, hbit, hpx⟩

theorem nodup_drawnPixels (s : State) (x y : Reg) (n : Nibble) : (drawnPixels s x y n).Nodup :=
  nodup_spritePixels ..

/-- What a sprite covers depends on memory and I alone. -/
theorem spriteCovers_congr {s u : State} (hmem : u.mem = s.mem) (hi : u.i = s.i) (n x0 y0 px py : Nat) :
    SpriteCovers u n x0 y0 px py ↔ SpriteCovers s n x0 y0 px py := by
  simp only [SpriteCovers, SpriteBit, State.effAddr, hmem, hi]

/-! ## What DXYN answers -/

/-- What DXYN leaves: the registers and the screen are the two pieces written. -/
theorem keptAllBut_drw (s : State) (fb : Framebuffer) (b : Byte) :
    KeptAllBut s (({ s.advance with fb := fb } : State).setV regF b) [.registers, .screen] :=
  keptAllBut_setV (keptAllBut_with_fb (keptAllBut_advance s _) (by decide) fb) (by decide) regF b

theorem exec_drw (x y : Reg) (n : Nibble) (s : State) : exec (.drw x y n) s = execDrw x y n s := rfl

/-- The memory range is checked before a pixel is looked at (R139). -/
theorem exec_drw_of_outside (x y : Reg) {n : Nibble} {s : State} (h : ¬InMemory (s.effAddr 0) n.toNat) :
    exec (.drw x y n) s =
      .next (s.takeFault (.memoryOutOfRange (max (s.effAddr 0) Config.memSize)) (some (formatR 0xD x y n))) := by
  obtain ⟨hn, habove⟩ := not_or.1 h
  rw [exec_drw, execDrw, memRead_error (Nat.pos_of_ne_zero hn) (Nat.lt_of_not_le habove)]
  rfl

theorem exec_drw_of_toggleAll_error {x y : Reg} {n : Nibble} {s : State} {f : Fault}
    (h : InMemory (s.effAddr 0) n.toNat) (htoggle : Framebuffer.toggleAll (drawnPixels s x y n) s.fb false = .error f) :
    exec (.drw x y n) s = .next (s.takeFault f (some (formatR 0xD x y n))) := by
  rw [drawnPixels] at htoggle
  rw [exec_drw, execDrw, memRead_ok h]
  simp only [htoggle]
  rfl

theorem exec_drw_of_toggleAll_ok {x y : Reg} {n : Nibble} {s : State} {fb : Framebuffer} {collision : Bool}
    (h : InMemory (s.effAddr 0) n.toNat)
    (htoggle : Framebuffer.toggleAll (drawnPixels s x y n) s.fb false = .ok (fb, collision)) :
    exec (.drw x y n) s = .next (({ s.advance with fb := fb } : State).setV regF (flagByte collision)) := by
  rw [drawnPixels] at htoggle
  rw [exec_drw, execDrw, memRead_ok h]
  simp only [htoggle]
  rfl

/-- A framebuffer is `s`'s with exactly the pixels toggled that the sprite covers. -/
def TogglesCovered (s : State) (n x0 y0 : Nat) (fb : Framebuffer) : Prop :=
  ∀ px py, fb.pixel px py = true ↔
    (s.fb.pixel px py = true ∧ ¬SpriteCovers s n x0 y0 px py) ∨
    (s.fb.pixel px py = false ∧ SpriteCovers s n x0 y0 px py)

/-- A sprite in memory and on the screen is drawn, with a collision exactly when a pixel it covers was on. -/
theorem exec_drw_of_fits {x y : Reg} {n : Nibble} {s : State} (hmem : InMemory (s.effAddr 0) n.toNat)
    (hfits : SpriteFits s n.toNat (s.V x).toNat (s.V y).toNat) :
    ∃ fb collision,
      exec (.drw x y n) s = .next (({ s.advance with fb := fb } : State).setV regF (flagByte collision)) ∧
      TogglesCovered s n.toNat (s.V x).toNat (s.V y).toNat fb ∧
      (collision = true ↔
        ∃ px py, SpriteCovers s n.toNat (s.V x).toNat (s.V y).toNat px py ∧ s.fb.pixel px py = true) := by
  have hin : ∀ p ∈ drawnPixels s x y n, p.1 < Config.fbWidth ∧ p.2 < Config.fbHeight :=
    fun p hp => hfits _ _ ((mem_drawnPixels ..).1 hp)
  obtain ⟨fb, htoggle, hpixel⟩ := toggleAll_ok (fb := s.fb) (c := false) (nodup_drawnPixels s x y n) hin
  refine ⟨fb, _, exec_drw_of_toggleAll_ok hmem htoggle, fun px py => ?toggled, ?collision⟩
  case toggled =>
    rw [hpixel, ← mem_drawnPixels]
    cases s.fb.pixel px py <;> simp
  case collision =>
    simp only [Bool.false_or, List.any_eq_true, Prod.exists, mem_drawnPixels]

/-- Toggling the same pixels again gives the first framebuffer back. -/
theorem togglesCovered_twice {s u : State} {n x0 y0 : Nat} {fb : Framebuffer}
    (hcovers : ∀ px py, SpriteCovers u n x0 y0 px py ↔ SpriteCovers s n x0 y0 px py)
    (hfirst : TogglesCovered s n x0 y0 u.fb) (hsecond : TogglesCovered u n x0 y0 fb) (px py : Nat) :
    fb.pixel px py = s.fb.pixel px py := by
  have hu := hfirst px py
  have hfb := hsecond px py
  rw [hcovers] at hfb
  by_cases covered : SpriteCovers s n x0 y0 px py
  · have flipped : u.fb.pixel px py = !s.fb.pixel px py := by rw [Bool.eq_iff_iff, hu]; simp [covered]
    rw [Bool.eq_iff_iff, hfb]
    simp [covered, flipped]
  · rw [Bool.eq_iff_iff, hfb]
    simp [covered, hu]

/-! ## The obligations -/

/-- Settles O51: the sprite's positions are distinct, so each is toggled once. -/
theorem drawTogglesCoveredPixels : Obligations.DrawTogglesCoveredPixels := by
  intro x y n s hmem hfits
  obtain ⟨fb, collision, hexec, htoggled, hcollision⟩ := exec_drw_of_fits hmem hfits
  refine ⟨_, hexec, rfl, htoggled, fun hit => ?hit, fun miss => ?miss, registersKeptBut_setV (fun _ => rfl) regF _,
    keptAllBut_drw s fb _⟩
  case hit =>
    rw [setV_V, if_pos rfl, hcollision.2 hit]
    rfl
  case miss =>
    have noHit : ¬collision = true := fun hit => by
      obtain ⟨px, py, hcovers, hpixel⟩ := hcollision.1 hit
      exact absurd ((miss px py hcovers).symm.trans hpixel) Bool.false_ne_true
    rw [setV_V, if_pos rfl, eq_false_of_ne_true noHit]
    rfl

/-- Settles O52: the range check comes first; then the positions in front of the first one off the screen are toggled, and
that one is the fault. -/
theorem drawFaultsInOrder : Obligations.DrawFaultsInOrder := by
  refine fun x y n s => ⟨exec_drw_of_outside x y, fun r c hmem hset hout hbefore => ?offScreen⟩
  case offScreen =>
    obtain ⟨b, hb, hc, hbit⟩ := (spriteBit_iff ..).1 hset
    obtain ⟨ps, qs, hsplit, hps⟩ := spritePixels_split (s.V x).toNat (s.V y).toNat _ r c b hb hc hbit
    have hin : ∀ p ∈ ps, p.1 < Config.fbWidth ∧ p.2 < Config.fbHeight := fun p hp => by
      obtain ⟨r', c', b', hb', hc', hbit', rfl, hlt⟩ := hps p hp
      exact hbefore r' c' ((spriteBit_iff ..).2 ⟨b', hb', hc', hbit'⟩) hlt
    refine exec_drw_of_toggleAll_error hmem ?_
    rw [drawnPixels, hsplit]
    exact toggleAll_error hin hout

/-- Settles O53: the second DXYN covers the same pixels, and those that were off are on when it comes to them. -/
theorem drawingTwiceRestoresScreen : Obligations.DrawingTwiceRestoresScreen := by
  intro x y n s hmem hfits
  obtain ⟨fb, _, hexec, htoggled, -⟩ := exec_drw_of_fits hmem hfits
  refine ⟨_, hexec, fun u hfb humem hui hux huy => ?_⟩
  have hcovers := spriteCovers_congr humem hui n.toNat (s.V x).toNat (s.V y).toNat
  have hmemU : InMemory (u.effAddr 0) n.toNat := by rwa [State.effAddr, hui]
  have hfitsU : SpriteFits u n.toNat (u.V x).toNat (u.V y).toNat := by
    rw [hux, huy]
    exact fun px py h => hfits px py ((hcovers px py).1 h)
  obtain ⟨fb', collision, hexec', htoggled', hcollision⟩ := exec_drw_of_fits hmemU hfitsU
  rw [hux, huy] at htoggled' hcollision
  have hfirst : TogglesCovered s n.toNat (s.V x).toNat (s.V y).toNat u.fb := hfb ▸ htoggled
  refine ⟨_, hexec', togglesCovered_twice hcovers hfirst htoggled', fun hoff ⟨px, py, hcovered⟩ => ?collision⟩
  case collision =>
    have hon : u.fb.pixel px py = true := (hfirst px py).2 (.inr ⟨hoff px py hcovered, hcovered⟩)
    rw [setV_V, if_pos rfl, hcollision.2 ⟨px, py, (hcovers px py).2 hcovered, hon⟩]
    rfl

end Sys2Proof.Proofs
end

section
/-! PROOFS. The key skips EX9E and EXA1: the level of key `V[X]`, or the fault above 15 (44_keypad_timers.md R120, R121,
R126). -/

namespace Sys2Proof.Proofs

open Sys2Proof.Machine Sys2Proof.Safety Sys2Proof.Laws

/-- A register that holds a key code is looked up at that code. -/
theorem keyAt_of_eq {s : State} {b : Byte} {k : Nibble} (h : b.toNat = k.toNat) : s.keyAt b = .ok (s.key k) := by
  have hk : k.toNat < 16 := k.isLt
  have hcode : b.setWidth 4 = k := BitVec.eq_of_toNat_eq <| by
    rw [BitVec.toNat_setWidth, h, Nat.mod_eq_of_lt hk]
  rw [keyAt_ok (by omega), hcode]

/-! ## What each instruction answers -/

theorem exec_skp (x : Reg) (s : State) : exec (.skp x) s = execSkp x s := rfl

theorem exec_sknp (x : Reg) (s : State) : exec (.sknp x) s = execSknp x s := rfl

theorem exec_skp_of_key (x : Reg) {s : State} {k : Nibble} (h : (s.V x).toNat = k.toNat) :
    exec (.skp x) s = .next { s with pc := if s.key k = true then s.pc + 4 else s.pc + 2 } := by
  rw [exec_skp, execSkp, keyAt_of_eq h]
  exact congrArg Host.Outcome.next (advance_skipIf s Iff.rfl)

theorem exec_sknp_of_key (x : Reg) {s : State} {k : Nibble} (h : (s.V x).toNat = k.toNat) :
    exec (.sknp x) s = .next { s with pc := if s.key k = false then s.pc + 4 else s.pc + 2 } := by
  rw [exec_sknp, execSknp, keyAt_of_eq h]
  exact congrArg Host.Outcome.next (advance_skipIf s (Bool.not_eq_true' _).to_iff)

theorem exec_skp_of_no_key (x : Reg) {s : State} (h : 15 < (s.V x).toNat) :
    exec (.skp x) s = .next (s.takeFault (.keyIndexOutOfRange (s.V x)) (some (formatI 0xE x 0x9E))) := by
  rw [exec_skp, execSkp, keyAt_error h]
  rfl

theorem exec_sknp_of_no_key (x : Reg) {s : State} (h : 15 < (s.V x).toNat) :
    exec (.sknp x) s = .next (s.takeFault (.keyIndexOutOfRange (s.V x)) (some (formatI 0xE x 0xA1))) := by
  rw [exec_sknp, execSknp, keyAt_error h]
  rfl

/-! ## The obligation -/

/-- Settles O54, from the two outcomes of each key skip. -/
theorem keySkipsTestKeyLevel : Obligations.KeySkipsTestKeyLevel := by
  refine fun x s => ⟨decodeWord_encode (.skp x), decodeWord_encode (.sknp x), fun k hk => ⟨?skp, ?sknp⟩,
    fun above => ⟨exec_skp_of_no_key x above, exec_sknp_of_no_key x above⟩⟩
  case skp => exact ⟨_, exec_skp_of_key x hk, rfl, keptAllBut_with_pc (keptAllBut_refl s []) _⟩
  case sknp => exact ⟨_, exec_sknp_of_key x hk, rfl, keptAllBut_with_pc (keptAllBut_refl s []) _⟩

end Sys2Proof.Proofs
end

section
/-! PROOFS. The STEP cycle: what each outcome of fetch and decode leads to (30_encoding.md R56), and what follows for an
instruction that stands at PC. -/

namespace Sys2Proof.Proofs

open Sys2Proof.Machine Sys2Proof.Safety Sys2Proof.Laws

/-! ## The outcomes of a STEP -/

theorem step_of_fault {s : State} (h : s.fault ≠ none) : step s = .next s := if_pos (halted_of_fault h)

theorem step_of_illegal {s : State} {w : Word} {e : DecodeError} (hrun : s.fault = none) (hf : s.fetch = .ok w)
    (hd : decodeWord w = .error e) : step s = .next (s.takeFault .decodeFailure (some w)) := by
  rw [step, stepCycle, if_neg (not_halted_of_no_fault hrun), hf]
  simp only [hd]

theorem step_of_legal {s : State} {w : Word} {i : Instr} (hrun : s.fault = none) (hf : s.fetch = .ok w)
    (hd : decodeWord w = .ok i) : step s = exec i s := by
  rw [step, stepCycle, if_neg (not_halted_of_no_fault hrun), hf]
  simp only [hd]

/-- With PC at 0xFFE at most, the fetch gives the word the two bytes at PC make. -/
theorem fetch_of_pc_inside {s : State} (hpc : s.pc.toNat ≤ 0xFFE) {w : Word}
    (hw : w.toNat = (s.mem.read s.pc.toNat).toNat * 256 + (s.mem.read (s.pc.toNat + 1)).toNat) : s.fetch = .ok w := by
  have inside : s.pc.toNat + 2 ≤ Config.memSize := (le_memSize_iff s.pc.toNat 1).2 (by omega)
  exact fetch_eq_ok_iff.2 ⟨inside, BitVec.eq_of_toNat_eq (hw.trans (toNat_wordOfBytes _ _).symm)⟩

/-- A fetch after an instruction's two bytes were stored at PC gives that instruction's word. -/
theorem fetch_of_stored {s : State} {i : Instr} (hm : s.mem.wf = true) (hpc : s.pc.toNat + 2 ≤ Config.memSize) :
    ({ s with mem := s.mem.writeBytes s.pc.toNat (encodeBytes i) } : State).fetch = .ok (encode i) := by
  have byte (r : Nat) (hr : r < 2) :
      (s.mem.writeBytes s.pc.toNat (encodeBytes i)).read (s.pc.toNat + r) = (encodeBytes i)[r] :=
    read_writeBytes_inside hm hpc hr
  refine fetch_eq_ok_iff.2 ⟨hpc, ?_⟩
  exact ((congrArg₂ wordOfBytes (byte 0 (by decide)) (byte 1 (by decide))).trans
    (wordOfBytes_highByte_lowByte (encode i))).symm

/-! ## The obligations -/

/-- Settles O7, clause by clause from the outcomes of a STEP. -/
theorem stepRunsDecodedInstruction : Obligations.StepRunsDecodedInstruction := by
  refine fun s => ⟨step_of_fault, step_of_pc_above, fun hrun hpc w hw => ⟨fun e hd => ?illegal, fun i hd => ?legal⟩⟩
  case illegal => exact step_of_illegal hrun (fetch_of_pc_inside hpc hw) hd
  case legal => exact step_of_legal hrun (fetch_of_pc_inside hpc hw) hd

/-- Settles O26: the store is inside memory, or it would have failed; the word fetched is the one stored, and it decodes
back. -/
theorem storedInstructionIsFetchedNext : Obligations.StoredInstructionIsFetchedNext := by
  intro s t i hm hrun hstore
  by_cases inside : s.pc.toNat + 2 ≤ Config.memSize
  · rw [memWrite_ok (bs := encodeBytes i) (.inr inside)] at hstore
    cases hstore
    exact step_of_legal hrun (fetch_of_stored hm inside) (decodeWord_encode i)
  · rw [memWrite_error (bs := encodeBytes i) Nat.two_pos (Nat.lt_of_not_le inside)] at hstore
    cases hstore

/-- Settles O32: the call pushed `PC + 2`, and the return pops it. -/
theorem returnFollowsItsCall : Obligations.ReturnFollowsItsCall := by
  intro nnn s t u room hcall hstack
  rw [exec_call_of_room nnn room] at hcall
  cases hcall
  exact ⟨_, exec_ret_of_stack_cons hstack, rfl, rfl⟩

/-- Settles O34: a halted core does nothing, and a core that runs executes a jump to where PC stands. -/
theorem jumpToItselfIsFixedPoint : Obligations.JumpToItselfIsFixedPoint := by
  intro s nnn hpc hfetch
  by_cases hrun : s.fault = none
  · have htarget : addrWord nnn = s.pc := BitVec.eq_of_toNat_eq ((toNat_addrWord nnn).trans hpc.symm)
    rw [step_of_legal hrun hfetch (decodeWord_encode (.jp nnn)), exec_jp, htarget]
  · exact step_of_fault hrun

end Sys2Proof.Proofs
end

section
/-! PROOFS. Each instruction that can fault, or that has two ways to complete, inverted once: everything it can answer, and
from which states (60_exceptions.md R130). -/

namespace Sys2Proof.Proofs

open Sys2Proof.Machine Sys2Proof.Safety Sys2Proof.Laws

/-- An outcome that is known in each of two cases, and is `t`, is `t` in one of them. -/
theorem next_cases {o : Host.Outcome State Fault Refusal} {t u v : State} {P Q : Prop} (h : o = .next t) (hPQ : P ∨ Q)
    (hP : P → o = .next u) (hQ : Q → o = .next v) : (P ∧ t = u) ∨ (Q ∧ t = v) := by
  rcases hPQ with p | q
  · cases h.symm.trans (hP p)
    exact .inl ⟨p, rfl⟩
  · cases h.symm.trans (hQ q)
    exact .inr ⟨q, rfl⟩

theorem exec_ret_cases {s t : State} (h : exec .ret s = .next t) :
    (∃ w ws, s.stack = w :: ws ∧ t = { s with pc := w, stack := ws }) ∨
      (s.stack = [] ∧ t = s.takeFault .stackUnderflow (some 0x00EE)) := by
  cases hstack : s.stack with
  | nil =>
    cases h.symm.trans (exec_ret_of_stack_nil hstack)
    exact .inr ⟨rfl, rfl⟩
  | cons w ws =>
    cases h.symm.trans (exec_ret_of_stack_cons hstack)
    exact .inl ⟨w, ws, rfl, rfl⟩

theorem exec_call_cases {nnn : Addr} {s t : State} (h : exec (.call nnn) s = .next t) :
    (s.stackCap ≠ some s.stack.length ∧ t = { s with pc := addrWord nnn, stack := (s.pc + 2) :: s.stack }) ∨
      (s.stackCap = some s.stack.length ∧ t = s.takeFault .stackOverflow (some (formatA 0x2 nnn))) :=
  next_cases h (ne_or_eq _ _) (exec_call_of_room nnn) (exec_call_of_full nnn)

theorem exec_bcd_cases {x : Reg} {s t : State} (h : exec (.bcd x) s = .next t) :
    (s.effAddr 0 + 3 ≤ Config.memSize ∧
        t = { s.advance with mem := s.mem.writeBytes (s.effAddr 0) (decimalDigits (s.V x)) }) ∨
      (Config.memSize < s.effAddr 0 + 3 ∧
        t = s.takeFault (.memoryOutOfRange (max (s.effAddr 0) Config.memSize)) (some (formatI 0xF x 0x33))) :=
  next_cases h (le_or_gt _ _) (exec_bcd_of_fits x) (exec_bcd_of_outside x)

theorem exec_stm_cases {x : Reg} {s t : State} (h : exec (.stm x) s = .next t) :
    (s.effAddr 0 + blockLength x ≤ Config.memSize ∧
        t = ({ s.advance with mem := s.mem.writeBytes (s.effAddr 0) (s.regBlock x) } : State).bumpI (blockLength x)) ∨
      (Config.memSize < s.effAddr 0 + blockLength x ∧
        t = s.takeFault (.memoryOutOfRange (max (s.effAddr 0) Config.memSize)) (some (formatI 0xF x 0x55))) :=
  next_cases h (le_or_gt _ _) (exec_stm_of_fits x) (exec_stm_of_outside x)

theorem exec_ldm_cases {x : Reg} {s t : State} (h : exec (.ldm x) s = .next t) :
    (s.effAddr 0 + blockLength x ≤ Config.memSize ∧
        t = (s.advance.setRegBlock (s.mem.readBytes (s.effAddr 0) (blockLength x))).bumpI (blockLength x)) ∨
      (Config.memSize < s.effAddr 0 + blockLength x ∧
        t = s.takeFault (.memoryOutOfRange (max (s.effAddr 0) Config.memSize)) (some (formatI 0xF x 0x65))) :=
  next_cases h (le_or_gt _ _) (exec_ldm_of_fits x) (exec_ldm_of_outside x)

/-- A byte that is a key code, as the four bits that name the key. -/
theorem toNat_keyCode {b : Byte} (h : b.toNat ≤ 15) : b.toNat = (b.setWidth 4).toNat := by
  rw [BitVec.toNat_setWidth, Nat.mod_eq_of_lt (Nat.lt_succ_of_le h)]

theorem exec_skp_cases {x : Reg} {s t : State} (h : exec (.skp x) s = .next t) :
    ((s.V x).toNat ≤ 15 ∧
        t = { s with pc := if s.key ((s.V x).setWidth 4) = true then s.pc + 4 else s.pc + 2 }) ∨
      (15 < (s.V x).toNat ∧ t = s.takeFault (.keyIndexOutOfRange (s.V x)) (some (formatI 0xE x 0x9E))) :=
  next_cases h (le_or_gt _ _) (fun code => exec_skp_of_key x (toNat_keyCode code)) (exec_skp_of_no_key x)

theorem exec_sknp_cases {x : Reg} {s t : State} (h : exec (.sknp x) s = .next t) :
    ((s.V x).toNat ≤ 15 ∧
        t = { s with pc := if s.key ((s.V x).setWidth 4) = false then s.pc + 4 else s.pc + 2 }) ∨
      (15 < (s.V x).toNat ∧ t = s.takeFault (.keyIndexOutOfRange (s.V x)) (some (formatI 0xE x 0xA1))) :=
  next_cases h (le_or_gt _ _) (fun code => exec_sknp_of_key x (toNat_keyCode code)) (exec_sknp_of_no_key x)

theorem exec_waitk_of_lowestKey (x : Reg) {s : State} {k : Nat} (h : s.lowestKey = some k) :
    exec (.waitk x) s = .next (s.advance.setV x (BitVec.ofNat 8 k)) := by
  rw [exec_waitk, execWaitk, h]

theorem exec_waitk_cases {x : Reg} {s t : State} (h : exec (.waitk x) s = .next t) :
    (s.lowestKey = none ∧ t = s) ∨ ∃ k, s.lowestKey = some k ∧ t = s.advance.setV x (BitVec.ofNat 8 k) := by
  cases hkey : s.lowestKey with
  | none =>
    cases h.symm.trans (exec_waitk_of_no_key x (lowestKey_eq_none.1 hkey))
    exact .inl ⟨rfl, rfl⟩
  | some k =>
    cases h.symm.trans (exec_waitk_of_lowestKey x hkey)
    exact .inr ⟨k, rfl, rfl⟩

/-- Toggling raises no fault but the one for a position off the screen. -/
theorem toggleAll_eq_error {ps : List (Nat × Nat)} {fb : Framebuffer} {collision : Bool} {f : Fault}
    (h : Framebuffer.toggleAll ps fb collision = .error f) : ∃ px py, f = .framebufferOutOfRange px py := by
  induction ps generalizing fb collision with
  | nil => cases h
  | cons p ps ih =>
    rw [Framebuffer.toggleAll] at h
    split at h
    · exact ih h
    · cases h
      exact ⟨p.1, p.2, rfl⟩

theorem exec_drw_cases {x y : Reg} {n : Nibble} {s t : State} (h : exec (.drw x y n) s = .next t) :
    (∃ fb collision, InMemory (s.effAddr 0) n.toNat ∧
        Framebuffer.toggleAll (drawnPixels s x y n) s.fb false = .ok (fb, collision) ∧
        t = ({ s.advance with fb := fb } : State).setV regF (flagByte collision)) ∨
      (∃ px py, InMemory (s.effAddr 0) n.toNat ∧
        Framebuffer.toggleAll (drawnPixels s x y n) s.fb false = .error (.framebufferOutOfRange px py) ∧
        t = s.takeFault (.framebufferOutOfRange px py) (some (formatR 0xD x y n))) ∨
      (¬InMemory (s.effAddr 0) n.toNat ∧
        t = s.takeFault (.memoryOutOfRange (max (s.effAddr 0) Config.memSize)) (some (formatR 0xD x y n))) := by
  by_cases inside : InMemory (s.effAddr 0) n.toNat
  · cases htoggle : Framebuffer.toggleAll (drawnPixels s x y n) s.fb false with
    | ok drawn =>
      cases h.symm.trans (exec_drw_of_toggleAll_ok inside htoggle)
      exact .inl ⟨drawn.1, drawn.2, inside, rfl, rfl⟩
    | error f =>
      obtain ⟨px, py, rfl⟩ := toggleAll_eq_error htoggle
      cases h.symm.trans (exec_drw_of_toggleAll_error inside htoggle)
      exact .inr (.inl ⟨px, py, inside, rfl, rfl⟩)
  · cases h.symm.trans (exec_drw_of_outside x y inside)
    exact .inr (.inr ⟨inside, rfl⟩)

end Sys2Proof.Proofs
end

section
/-! PROOFS. The rules of the whole machine: what any instruction writes, which faults it raises, and that it always answers
a next state (10_state.md section 1, 60_exceptions.md section 1). -/

namespace Sys2Proof.Proofs

open Sys2Proof.Machine Sys2Proof.Safety Sys2Proof.Laws

/-! ## Totality -/

theorem commit_answers (i : Instr) (s : State) (e : Except Fault State) : ∃ t, commit i s e = .next t := by
  cases e with
  | ok t => exact ⟨t, rfl⟩
  | error f => exact ⟨_, rfl⟩

theorem exec_answers (i : Instr) (s : State) : ∃ t, exec i s = .next t := by
  cases i with
  | ret | call | drw | skp | sknp | bcd | stm | ldm => exact commit_answers ..
  | waitk x =>
    rw [exec_waitk, execWaitk]
    cases s.lowestKey with
    | none | some => exact ⟨_, rfl⟩
  | cls | jp | sei | snei | ser | ldi | addi | mov | or | and | xor | add | sub | shr | subn | shl | sner | lda | jpv0
  | rnd | getdt | setdt | setst | adda | font => exact ⟨_, rfl⟩

theorem step_answers (s : State) : ∃ t, step s = .next t := by
  by_cases hrun : s.fault = none
  · cases hf : s.fetch with
    | error f => exact ⟨_, step_of_fetch_error hrun hf⟩
    | ok w =>
      cases hd : decodeWord w with
      | error e => exact ⟨_, step_of_illegal hrun hf hd⟩
      | ok i => exact step_of_legal hrun hf hd ▸ exec_answers i s
  · exact ⟨s, step_of_fault hrun⟩

/-- Settles O8: each instruction and each outcome of fetch and decode answers a next state. -/
theorem stepAlwaysAnswersNextState : Obligations.StepAlwaysAnswersNextState := ⟨step_answers, exec_answers⟩

/-! ## The faults of each instruction (60_exceptions.md R130, the column "raised by") -/

theorem mayRaise_ret : mayRaise .ret .stackUnderflow := rfl

theorem mayRaise_call (nnn : Addr) : mayRaise (.call nnn) .stackOverflow := ⟨nnn, rfl⟩

theorem mayRaise_skp (x : Reg) (b : Byte) : mayRaise (.skp x) (.keyIndexOutOfRange b) := ⟨x, .inl rfl⟩

theorem mayRaise_sknp (x : Reg) (b : Byte) : mayRaise (.sknp x) (.keyIndexOutOfRange b) := ⟨x, .inr rfl⟩

theorem mayRaise_bcd (x : Reg) (a : Nat) : mayRaise (.bcd x) (.memoryOutOfRange a) := .inr ⟨x, .inl rfl⟩

theorem mayRaise_stm (x : Reg) (a : Nat) : mayRaise (.stm x) (.memoryOutOfRange a) := .inr ⟨x, .inr (.inl rfl)⟩

theorem mayRaise_ldm (x : Reg) (a : Nat) : mayRaise (.ldm x) (.memoryOutOfRange a) := .inr ⟨x, .inr (.inr rfl)⟩

theorem mayRaise_drw_memory (x y : Reg) (n : Nibble) (a : Nat) : mayRaise (.drw x y n) (.memoryOutOfRange a) :=
  .inl ⟨x, y, n, rfl⟩

theorem mayRaise_drw_screen (x y : Reg) (n : Nibble) (px py : Nat) :
    mayRaise (.drw x y n) (.framebufferOutOfRange px py) := ⟨x, y, n, rfl⟩

/-! ## What an instruction writes, or which fault it takes -/

theorem keptAllBut_advance_skipIf (s : State) (c : Bool) (changed : List Piece) :
    KeptAllBut s (s.advance.skipIf c) changed := by
  rw [advance_skipIf s Iff.rfl]
  exact keptAllBut_with_pc (keptAllBut_refl s changed) _

/-- Settles O57: each instruction completes with its frame, or is one of the eight that take a fault of their own. -/
theorem instructionsWriteOnlyTheirOwnState : Obligations.InstructionsWriteOnlyTheirOwnState := by
  intro i s t h
  cases i with
  | cls =>
    cases h
    exact .inl ⟨keptAllBut_with_fb (keptAllBut_advance s _) (List.mem_singleton_self _) _, fun _ => rfl⟩
  | jp | jpv0 =>
    cases h
    exact .inl ⟨keptAllBut_with_pc (keptAllBut_refl s _) _, nofun⟩
  | sei | snei | ser | sner =>
    cases h
    exact .inl ⟨keptAllBut_advance_skipIf s _ _, nofun⟩
  | ldi | addi | mov | or | and | xor | getdt =>
    cases h
    exact .inl ⟨keptAllBut_setV (keptAllBut_advance s _) (List.mem_singleton_self _) _ _, fun _ => rfl⟩
  | add | sub | shr | subn | shl =>
    cases h
    exact .inl ⟨keptAllBut_writeFlagged (keptAllBut_advance s _) (List.mem_singleton_self _) _ _ _, fun _ => rfl⟩
  | rnd =>
    cases h
    exact .inl ⟨keptAllBut_rnd s _ _, fun _ => rfl⟩
  | lda | adda | font =>
    cases h
    exact .inl ⟨keptAllBut_with_pc (keptAllBut_with_index s _) _, fun _ => rfl⟩
  | setdt =>
    cases h
    exact .inl ⟨keptAllBut_with_pc (keptAllBut_with_dt s _) _, fun _ => rfl⟩
  | setst =>
    cases h
    exact .inl ⟨keptAllBut_with_pc (keptAllBut_with_st s _) _, fun _ => rfl⟩
  | waitk =>
    obtain ⟨-, rfl⟩ | ⟨_, -, rfl⟩ := exec_waitk_cases h
    · exact .inl ⟨keptAllBut_refl t _, nofun⟩
    · exact .inl ⟨keptAllBut_setV (keptAllBut_advance s _) (List.mem_singleton_self _) _ _, nofun⟩
  | ret =>
    obtain ⟨w, ws, -, rfl⟩ | ⟨-, rfl⟩ := exec_ret_cases h
    · exact .inl ⟨keptAllBut_with_pc (keptAllBut_with_stack s ws) w, nofun⟩
    · exact .inr ⟨_, mayRaise_ret, rfl⟩
  | call nnn =>
    obtain ⟨-, rfl⟩ | ⟨-, rfl⟩ := exec_call_cases h
    · exact .inl ⟨keptAllBut_with_pc (keptAllBut_with_stack s ((s.pc + 2) :: s.stack)) (addrWord nnn), nofun⟩
    · exact .inr ⟨_, mayRaise_call nnn, rfl⟩
  | skp x =>
    obtain ⟨-, rfl⟩ | ⟨-, rfl⟩ := exec_skp_cases h
    · exact .inl ⟨keptAllBut_with_pc (keptAllBut_refl s _) _, nofun⟩
    · exact .inr ⟨_, mayRaise_skp x _, rfl⟩
  | sknp x =>
    obtain ⟨-, rfl⟩ | ⟨-, rfl⟩ := exec_sknp_cases h
    · exact .inl ⟨keptAllBut_with_pc (keptAllBut_refl s _) _, nofun⟩
    · exact .inr ⟨_, mayRaise_sknp x _, rfl⟩
  | bcd x =>
    obtain ⟨-, rfl⟩ | ⟨-, rfl⟩ := exec_bcd_cases h
    · exact .inl ⟨keptAllBut_with_pc (keptAllBut_with_mem s _) (s.pc + 2), fun _ => rfl⟩
    · exact .inr ⟨_, mayRaise_bcd x _, rfl⟩
  | stm x =>
    obtain ⟨-, rfl⟩ | ⟨-, rfl⟩ := exec_stm_cases h
    · exact .inl ⟨keptAllBut_stm s _ _, fun _ => rfl⟩
    · exact .inr ⟨_, mayRaise_stm x _, rfl⟩
  | ldm x =>
    obtain ⟨-, rfl⟩ | ⟨-, rfl⟩ := exec_ldm_cases h
    · exact .inl ⟨keptAllBut_ldm s _ _, fun _ => rfl⟩
    · exact .inr ⟨_, mayRaise_ldm x _, rfl⟩
  | drw x y n =>
    obtain ⟨fb, _, -, -, rfl⟩ | ⟨_, _, -, -, rfl⟩ | ⟨-, rfl⟩ := exec_drw_cases h
    · exact .inl ⟨keptAllBut_drw s fb _, fun _ => rfl⟩
    · exact .inr ⟨_, mayRaise_drw_screen x y n _ _, rfl⟩
    · exact .inr ⟨_, mayRaise_drw_memory x y n _, rfl⟩

end Sys2Proof.Proofs
end

section
/-! PROOFS. What follows from the frame of every instruction: faults are precise and belong to their instructions, and VF,
the keypad and the sound timer are touched only where the spec says (60_exceptions.md section 1; 10_state.md sections 2, 6
and 7). -/

namespace Sys2Proof.Proofs

open Sys2Proof.Machine Sys2Proof.Safety Sys2Proof.Laws

/-! ## Faults -/

/-- No instruction completes with another fault record: the record is written by taking a fault alone. -/
theorem fault_notMem_piecesWritten (i : Instr) : Piece.fault ∉ piecesWritten i := by
  cases i <;> simp [piecesWritten]

/-- An instruction that ends with a record on a running core took a fault of its own. -/
theorem takeFault_of_exec {i : Instr} {s t : State} {r : FaultRecord} (hrun : s.fault = none)
    (h : exec i s = .next t) (hr : t.fault = some r) :
    ∃ f, mayRaise i f ∧ t = s.takeFault f (some (encode i)) ∧ r = ⟨f, some (encode i), s.pc⟩ := by
  obtain ⟨hkept, -⟩ | ⟨f, hraise, rfl⟩ := instructionsWriteOnlyTheirOwnState i s t h
  · have hfault : t.fault = s.fault := hkept .fault (fault_notMem_piecesWritten i)
    rw [hfault, hrun] at hr
    cases hr
  · cases hr
    exact ⟨f, hraise, rfl, rfl⟩

/-- A fetch fails only with PC above 0xFFE, and names the lowest address above memory. -/
theorem fetch_eq_error {s : State} {f : Fault} (h : s.fetch = .error f) :
    0xFFE < s.pc.toNat ∧ f = .memoryOutOfRange (max s.pc.toNat 0x1000) := by
  by_cases inside : s.pc.toNat + 2 ≤ Config.memSize
  · rw [fetch_ok inside] at h
    cases h
  · have above : 0xFFF < s.pc.toNat + 1 := (memSize_lt_iff s.pc.toNat 1).1 (Nat.lt_of_not_le inside)
    cases h.symm.trans (fetch_error (Nat.lt_of_not_le inside))
    exact ⟨by omega, rfl⟩

/-! ## Registers -/

/-- An instruction that is not listed for the registers writes none. -/
theorem registersKept_of_exec {i : Instr} {s t : State} (h : exec i s = .next t)
    (hregs : Piece.registers ∉ piecesWritten i) (r : Reg) : t.V r = s.V r := by
  obtain ⟨hkept, -⟩ | ⟨f, -, rfl⟩ := instructionsWriteOnlyTheirOwnState i s t h
  · exact hkept .registers hregs r
  · exact takeFault_V ..

/-- Writing a register other than VF keeps VF. -/
theorem regF_advance_setV (s : State) {x : Reg} (b : Byte) (hx : x ≠ regF) : (s.advance.setV x b).V regF = s.V regF :=
  registersKeptBut_setV (advance_V s) x b regF hx.symm

/-- A block of registers up to a register other than VF ends below VF. -/
theorem regF_setRegBlock_readBytes (s : State) (m : Memory) (a : Nat) {x : Reg} (hx : x ≠ regF) :
    (s.setRegBlock (m.readBytes a (blockLength x))).V regF = s.V regF := by
  have below : ¬regF.toNat ≤ x.toNat := fun le => by
    have hlt : x.toNat < 16 := x.isLt
    have hF : regF.toNat = 15 := rfl
    exact hx (BitVec.eq_of_toNat_eq (by omega))
  rw [setRegBlock_readBytes_V, if_neg below]

/-! ## The keypad and the sound timer -/

/-- A state with another keypad and another sound timer. -/
def withKeysSound (s : State) (keys : Vector Bool 16) (b : Byte) : State := { s with keys := keys, st := b }

theorem advance_skipIf_withKeysSound (s : State) (keys : Vector Bool 16) (b : Byte) (c : Bool) :
    (withKeysSound s keys b).advance.skipIf c = withKeysSound (s.advance.skipIf c) keys b := by
  cases c <;> rfl

/-- An instruction that neither reads the keypad nor writes the sound timer does the same with any others. -/
theorem exec_withKeysSound {i : Instr} {s t : State} (h : exec i s = .next t) (hkeys : ¬readsKeypad i)
    (hsound : Piece.sound ∉ piecesWritten i) (keys : Vector Bool 16) (b : Byte) :
    exec i (withKeysSound s keys b) = .next (withKeysSound t keys b) := by
  cases i with
  | skp | sknp | waitk => exact absurd trivial hkeys
  | setst => exact absurd (List.mem_singleton_self _) hsound
  | cls | jp | ldi | addi | mov | or | and | xor | add | sub | shr | subn | shl | lda | jpv0 | rnd | getdt | setdt | adda
  | font =>
    cases h
    rfl
  | sei | snei | ser | sner =>
    cases h
    exact congrArg Host.Outcome.next (advance_skipIf_withKeysSound ..)
  | ret =>
    obtain ⟨w, ws, hstack, rfl⟩ | ⟨hstack, rfl⟩ := exec_ret_cases h
    · exact exec_ret_of_stack_cons hstack
    · exact exec_ret_of_stack_nil hstack
  | call nnn =>
    obtain ⟨room, rfl⟩ | ⟨full, rfl⟩ := exec_call_cases h
    · exact exec_call_of_room nnn room
    · exact exec_call_of_full nnn full
  | bcd x =>
    obtain ⟨fits, rfl⟩ | ⟨outside, rfl⟩ := exec_bcd_cases h
    · exact exec_bcd_of_fits x fits
    · exact exec_bcd_of_outside x outside
  | stm x =>
    obtain ⟨fits, rfl⟩ | ⟨outside, rfl⟩ := exec_stm_cases h
    · exact exec_stm_of_fits x fits
    · exact exec_stm_of_outside x outside
  | ldm x =>
    obtain ⟨fits, rfl⟩ | ⟨outside, rfl⟩ := exec_ldm_cases h
    · exact exec_ldm_of_fits x fits
    · exact exec_ldm_of_outside x outside
  | drw x y n =>
    obtain ⟨_, _, inside, htoggle, rfl⟩ | ⟨_, _, inside, htoggle, rfl⟩ | ⟨outside, rfl⟩ := exec_drw_cases h
    · exact exec_drw_of_toggleAll_ok inside htoggle
    · exact exec_drw_of_toggleAll_error inside htoggle
    · exact exec_drw_of_outside x y outside

/-- In particular such an instruction leaves the keypad and the sound timer as they are. -/
theorem eq_withKeysSound_of_exec {i : Instr} {s t : State} (h : exec i s = .next t) (hkeys : ¬readsKeypad i)
    (hsound : Piece.sound ∉ piecesWritten i) : t = withKeysSound t s.keys s.st :=
  Host.Outcome.next.inj (h.symm.trans (exec_withKeysSound h hkeys hsound s.keys s.st))

theorem exec_with_keys {i : Instr} {s t : State} (h : exec i s = .next t) (hkeys : ¬readsKeypad i)
    (keys : Vector Bool 16) : exec i { s with keys := keys } = .next { t with keys := keys } := by
  by_cases hsound : Piece.sound ∈ piecesWritten i
  · cases i with
    | setst =>
      cases h
      rfl
    | _ => simp [piecesWritten] at hsound
  · rw [eq_withKeysSound_of_exec h hkeys hsound]
    exact exec_withKeysSound h hkeys hsound keys s.st

/-- With another sound timer an instruction does the same, but for the sound timer it leaves. -/
theorem exec_with_st {i : Instr} {s t : State} (h : exec i s = .next t) (b : Byte) :
    ∃ b', exec i { s with st := b } = .next { t with st := b' } := by
  cases i with
  | skp x =>
    obtain ⟨code, rfl⟩ | ⟨above, rfl⟩ := exec_skp_cases h
    · exact ⟨b, exec_skp_of_key x (toNat_keyCode code)⟩
    · exact ⟨b, exec_skp_of_no_key x above⟩
  | sknp x =>
    obtain ⟨code, rfl⟩ | ⟨above, rfl⟩ := exec_sknp_cases h
    · exact ⟨b, exec_sknp_of_key x (toNat_keyCode code)⟩
    · exact ⟨b, exec_sknp_of_no_key x above⟩
  | waitk x =>
    obtain ⟨hnone, rfl⟩ | ⟨_, hsome, rfl⟩ := exec_waitk_cases h
    · exact ⟨b, exec_waitk_of_no_key x (lowestKey_eq_none.1 hnone)⟩
    · exact ⟨b, exec_waitk_of_lowestKey x hsome⟩
  | setst =>
    cases h
    exact ⟨_, rfl⟩
  | _ =>
    rw [eq_withKeysSound_of_exec h not_false (by simp [piecesWritten])]
    exact ⟨b, exec_withKeysSound h not_false (by simp [piecesWritten]) s.keys b⟩

/-! ## The obligations -/

/-- Settles O12, by the three ways a STEP of a running core can end with a record. -/
theorem faultingStepChangesOnlyTheRecord : Obligations.FaultingStepChangesOnlyTheRecord := by
  intro s t r hrun hstep hr
  obtain ⟨hhalted, -⟩ | ⟨-, f, hf, rfl⟩ | ⟨-, w, hf, ⟨_, -, rfl⟩ | ⟨i, hd, hexec⟩⟩ := step_cases hstep
  · exact absurd hrun hhalted
  · obtain ⟨habove, hcause⟩ := fetch_eq_error hf
    cases hr
    exact ⟨rfl, rfl, .inl ⟨rfl, habove, hcause⟩⟩
  · cases hr
    exact ⟨rfl, rfl, .inr ⟨w, rfl, hf⟩⟩
  · obtain ⟨f, -, rfl, rfl⟩ := takeFault_of_exec hrun hexec hr
    exact ⟨rfl, rfl, .inr ⟨w, congrArg some (encode_of_decodeWord hd), hf⟩⟩

/-- Settles O13: a record on a core that ran was written by the one operation that takes a fault. -/
theorem onlyListedInstructionsRaiseEachFault : Obligations.OnlyListedInstructionsRaiseEachFault := by
  intro i s t r hrun h hr
  obtain ⟨f, hraise, -, rfl⟩ := takeFault_of_exec hrun h hr
  exact ⟨hraise, rfl, rfl⟩

/-- Settles O58: an instruction that is not listed for the registers writes none, and the others are flag instructions or
write the registers they name. -/
theorem onlyFlagInstructionsWriteVF : Obligations.OnlyFlagInstructionsWriteVF := by
  intro i s t h hVF
  cases i with
  | add | sub | shr | subn | shl | drw => exact absurd trivial hVF
  | ldi | addi | mov | or | and | xor | rnd | getdt =>
    cases h
    exact regF_advance_setV s _ hVF
  | waitk =>
    obtain ⟨-, rfl⟩ | ⟨k, -, rfl⟩ := exec_waitk_cases h
    · rfl
    · exact regF_advance_setV s _ hVF
  | ldm x =>
    obtain ⟨-, rfl⟩ | ⟨-, rfl⟩ := exec_ldm_cases h
    · exact regF_setRegBlock_readBytes s.advance _ _ hVF
    · exact takeFault_V ..
  | cls | ret | jp | call | sei | snei | ser | sner | lda | jpv0 | skp | sknp | setdt | setst | adda | font | bcd | stm =>
    exact registersKept_of_exec h (by simp [piecesWritten]) regF

/-- Settles O59: the keypad can be replaced under every instruction that does not read it. -/
theorem onlyKeyInstructionsReadKeypad : Obligations.OnlyKeyInstructionsReadKeypad :=
  fun _ _ _ keys hkeys h => exec_with_keys h hkeys keys

/-- Settles O60: the cycle itself looks at the fault record, PC and memory, and no instruction reads ST. -/
theorem soundTimerIsUnobservable : Obligations.SoundTimerIsUnobservable := by
  intro s t b h
  obtain ⟨hhalted, rfl⟩ | ⟨hrun, f, hf, rfl⟩ | ⟨hrun, w, hf, ⟨e, hd, rfl⟩ | ⟨i, hd, hexec⟩⟩ := step_cases h
  · exact ⟨b, step_of_fault hhalted⟩
  · exact ⟨b, step_of_fetch_error hrun hf⟩
  · exact ⟨b, step_of_illegal hrun hf hd⟩
  · rw [step_of_legal (s := { s with st := b }) hrun hf hd]
    exact exec_with_st hexec b

end Sys2Proof.Proofs
end

section
/-! PROOFS. The invariant of every run: what each instruction does to memory, PC and the stack keeps it, and so does every
STEP (10_state.md sections 4, 5 and 10). -/

namespace Sys2Proof.Proofs

open Sys2Proof.Machine Sys2Proof.Safety Sys2Proof.Laws

/-! ## Memory -/

/-- Memory is written by FX33 and FX55 alone, inside the address space, so it stays canonical. -/
theorem wf_of_exec {i : Instr} {s t : State} (h : exec i s = .next t) (hm : s.mem.wf = true) : t.mem.wf = true := by
  cases i with
  | bcd x =>
    obtain ⟨fits, rfl⟩ | ⟨-, rfl⟩ := exec_bcd_cases h
    · exact wf_writeBytes hm _ _ fits
    · exact hm
  | stm x =>
    obtain ⟨fits, rfl⟩ | ⟨-, rfl⟩ := exec_stm_cases h
    · exact wf_writeBytes hm _ _ ((length_regBlock s x).symm ▸ fits)
    · exact hm
  | ret => obtain ⟨_, _, -, rfl⟩ | ⟨-, rfl⟩ := exec_ret_cases h <;> exact hm
  | call => obtain ⟨-, rfl⟩ | ⟨-, rfl⟩ := exec_call_cases h <;> exact hm
  | skp => obtain ⟨-, rfl⟩ | ⟨-, rfl⟩ := exec_skp_cases h <;> exact hm
  | sknp => obtain ⟨-, rfl⟩ | ⟨-, rfl⟩ := exec_sknp_cases h <;> exact hm
  | waitk => obtain ⟨-, rfl⟩ | ⟨_, -, rfl⟩ := exec_waitk_cases h <;> exact hm
  | ldm => obtain ⟨-, rfl⟩ | ⟨-, rfl⟩ := exec_ldm_cases h <;> exact hm
  | drw => obtain ⟨_, _, -, -, rfl⟩ | ⟨_, _, -, -, rfl⟩ | ⟨-, rfl⟩ := exec_drw_cases h <;> exact hm
  | sei | snei | ser | sner =>
    cases h
    rwa [skipIf_mem]
  | cls | jp | ldi | addi | mov | or | and | xor | add | sub | shr | subn | shl | lda | jpv0 | rnd | getdt | setdt | setst
  | adda | font =>
    cases h
    exact hm

/-! ## PC -/

/-- After a word that was fetched, the next instruction's address does not wrap. -/
theorem toNat_pc_add_two_le {s : State} (hpc : s.pc.toNat ≤ 0xFFE) : (s.pc + 2).toNat ≤ 0x1000 := by
  bv_omega

theorem toNat_skip_le {s : State} (hpc : s.pc.toNat ≤ 0xFFE) (P : Prop) [Decidable P] :
    (if P then s.pc + 4 else s.pc + 2).toNat ≤ 0x1002 := by
  split <;> bv_omega

theorem toNat_advance_skipIf_pc_le {s : State} (hpc : s.pc.toNat ≤ 0xFFE) (c : Bool) :
    (s.advance.skipIf c).pc.toNat ≤ 0x1002 := by
  rw [advance_skipIf s Iff.rfl]
  exact toNat_skip_le hpc _

/-- The highest PC is the highest target of BNNN, 0xFF + 0xFFF; a return goes no higher than 0x1000 (10_state.md R28). -/
theorem pc_le_of_exec {i : Instr} {s t : State} (h : exec i s = .next t) (hpc : s.pc.toNat ≤ 0xFFE)
    (hreturn : ∀ w ∈ s.stack, w.toNat ≤ 0x1000) : t.pc.toNat ≤ 0x10FE := by
  have hnext : (s.pc + 2).toNat ≤ 0x1000 := toNat_pc_add_two_le hpc
  cases i with
  | ret =>
    obtain ⟨w, ws, hstack, rfl⟩ | ⟨-, rfl⟩ := exec_ret_cases h
    · have hw : w.toNat ≤ 0x1000 := hreturn w (hstack ▸ List.mem_cons_self ..)
      exact hw.trans (by decide)
    · exact hpc.trans (by decide)
  | jp nnn =>
    cases h
    have hnnn : nnn.toNat < 4096 := nnn.isLt
    exact (toNat_addrWord nnn).trans_le (by omega)
  | jpv0 nnn =>
    cases h
    have hb : (s.V 0).toNat < 256 := (s.V 0).isLt
    have hnnn : nnn.toNat < 4096 := nnn.isLt
    exact (toNat_byteWord_add_addrWord (s.V 0) nnn).trans_le (by omega)
  | call nnn =>
    obtain ⟨-, rfl⟩ | ⟨-, rfl⟩ := exec_call_cases h
    · have hnnn : nnn.toNat < 4096 := nnn.isLt
      exact (toNat_addrWord nnn).trans_le (by omega)
    · exact hpc.trans (by decide)
  | sei | snei | ser | sner =>
    cases h
    exact (toNat_advance_skipIf_pc_le hpc _).trans (by decide)
  | skp =>
    obtain ⟨-, rfl⟩ | ⟨-, rfl⟩ := exec_skp_cases h
    · exact (toNat_skip_le hpc _).trans (by decide)
    · exact hpc.trans (by decide)
  | sknp =>
    obtain ⟨-, rfl⟩ | ⟨-, rfl⟩ := exec_sknp_cases h
    · exact (toNat_skip_le hpc _).trans (by decide)
    · exact hpc.trans (by decide)
  | waitk =>
    obtain ⟨-, rfl⟩ | ⟨_, -, rfl⟩ := exec_waitk_cases h
    · exact hpc.trans (by decide)
    · exact hnext.trans (by decide)
  | _ =>
    obtain ⟨-, hadvance⟩ | ⟨_, -, rfl⟩ := instructionsWriteOnlyTheirOwnState _ s t h
    · exact hadvance rfl ▸ hnext.trans (by decide)
    · exact hpc.trans (by decide)

/-! ## The call stack and its cap -/

/-- The stack is kept, or the next address is pushed with room for it, or the top entry is popped. -/
theorem stack_of_exec {i : Instr} {s t : State} (h : exec i s = .next t) :
    t.stack = s.stack ∨ (s.stackCap ≠ some s.stack.length ∧ t.stack = (s.pc + 2) :: s.stack) ∨
      ∃ w, s.stack = w :: t.stack := by
  cases i with
  | ret =>
    obtain ⟨w, ws, hstack, rfl⟩ | ⟨-, rfl⟩ := exec_ret_cases h
    · exact .inr (.inr ⟨w, hstack⟩)
    · exact .inl rfl
  | call =>
    obtain ⟨room, rfl⟩ | ⟨-, rfl⟩ := exec_call_cases h
    · exact .inr (.inl ⟨room, rfl⟩)
    · exact .inl rfl
  | _ =>
    obtain ⟨hkept, -⟩ | ⟨_, -, rfl⟩ := instructionsWriteOnlyTheirOwnState _ s t h
    · exact .inl (hkept .stack (by simp [piecesWritten]))
    · exact .inl rfl

theorem stackCap_notMem_piecesWritten (i : Instr) : Piece.stackCap ∉ piecesWritten i := by
  cases i <;> simp [piecesWritten]

/-- `STACK_CAP` is configuration: no instruction writes it. -/
theorem stackCap_of_exec {i : Instr} {s t : State} (h : exec i s = .next t) : t.stackCap = s.stackCap := by
  obtain ⟨hkept, -⟩ | ⟨_, -, rfl⟩ := instructionsWriteOnlyTheirOwnState i s t h
  · exact hkept .stackCap (stackCap_notMem_piecesWritten i)
  · rfl

theorem stackCap_of_step {s t : State} (h : step s = .next t) : t.stackCap = s.stackCap := by
  obtain ⟨-, rfl⟩ | ⟨-, _, -, rfl⟩ | ⟨-, _, -, ⟨_, -, rfl⟩ | ⟨_, -, hexec⟩⟩ := step_cases h
  · rfl
  · rfl
  · rfl
  · exact stackCap_of_exec hexec

/-- Return addresses stay in range, since the one pushed is the address after a word that was fetched. -/
theorem returnRange_of_exec {i : Instr} {s t : State} (h : exec i s = .next t) (hpc : s.pc.toNat ≤ 0xFFE)
    (hreturn : ∀ w ∈ s.stack, w.toNat ≤ 0x1000) : ∀ w ∈ t.stack, w.toNat ≤ 0x1000 := by
  obtain same | ⟨-, pushed⟩ | ⟨_, popped⟩ := stack_of_exec h
  · rwa [same]
  · rw [pushed]
    exact List.forall_mem_cons.2 ⟨toNat_pc_add_two_le hpc, hreturn⟩
  · exact fun w hw => hreturn w (popped ▸ List.mem_cons_of_mem _ hw)

/-- The stack grows only below its cap. -/
theorem length_stack_le_of_exec {i : Instr} {s t : State} (h : exec i s = .next t) {c : Nat} (hcap : s.stackCap = some c)
    (hle : s.stack.length ≤ c) : t.stack.length ≤ c := by
  obtain same | ⟨room, pushed⟩ | ⟨_, popped⟩ := stack_of_exec h
  · rwa [same]
  · have below : c ≠ s.stack.length := fun e => room (hcap.trans (congrArg some e))
    rw [pushed, List.length_cons]
    omega
  · rw [popped, List.length_cons] at hle
    omega

/-! ## The invariant -/

/-- A state that differs from one that meets the invariant in nothing the invariant speaks of meets it too. -/
theorem inv_congr {s t : State} (hs : Inv s) (hmem : t.mem = s.mem) (hpc : t.pc = s.pc) (hstack : t.stack = s.stack)
    (hcap : t.stackCap = s.stackCap) (hfault : t.fault = s.fault) : Inv t where
  memory := hmem ▸ hs.memory
  pcRange := hpc ▸ hs.pcRange
  returnRange := hstack ▸ hs.returnRange
  stackCap := by rw [hcap, hstack]; exact hs.stackCap
  faultRecord := by
    intro r hr
    rw [FaultRecordFits, hpc, fetch_congr hpc hmem]
    exact hs.faultRecord r (hfault ▸ hr)

theorem inv_takeFault {s : State} (hs : Inv s) {f : Fault} {w : Option Word} (hfits : FaultRecordFits s ⟨f, w, s.pc⟩) :
    Inv (s.takeFault f w) where
  memory := hs.memory
  pcRange := hs.pcRange
  returnRange := hs.returnRange
  stackCap := hs.stackCap
  faultRecord := by
    rintro _ ⟨⟩
    rw [FaultRecordFits, takeFault_fetch]
    exact hfits

/-- On a core that runs, an instruction that was fetched from PC keeps the invariant, whether it completes or faults. -/
theorem inv_exec {i : Instr} {s t : State} (hs : Inv s) (hrun : s.fault = none) (hf : s.fetch = .ok (encode i))
    (h : exec i s = .next t) : Inv t := by
  have hpc : s.pc.toNat ≤ 0xFFE := by
    have inside : s.pc.toNat + 1 ≤ 0xFFF := (le_memSize_iff s.pc.toNat 1).1 (fetch_eq_ok_iff.1 hf).1
    omega
  refine ⟨wf_of_exec h hs.memory, pc_le_of_exec h hpc hs.returnRange, returnRange_of_exec h hpc hs.returnRange,
    fun c hc => ?cap, fun r hr => ?record⟩
  case cap =>
    have hcap : s.stackCap = some c := stackCap_of_exec h ▸ hc
    exact length_stack_le_of_exec h hcap (hs.stackCap c hcap)
  case record =>
    obtain ⟨f, -, rfl, rfl⟩ := takeFault_of_exec hrun h hr
    exact ⟨rfl, (takeFault_fetch ..).trans hf⟩

theorem inv_step {s t : State} (hs : Inv s) (h : step s = .next t) : Inv t := by
  obtain ⟨-, rfl⟩ | ⟨-, f, hf, rfl⟩ | ⟨hrun, w, hf, ⟨_, -, rfl⟩ | ⟨i, hd, hexec⟩⟩ := step_cases h
  · exact hs
  · exact inv_takeFault hs ⟨rfl, hf⟩
  · exact inv_takeFault hs ⟨rfl, hf⟩
  · exact inv_exec hs hrun (encode_of_decodeWord hd ▸ hf) hexec

/-- Over a canonical memory and with a legal cap, the one sentinel entry fits and PC is 0x200. -/
theorem inv_launch {m : Memory} {k : Nat} {cap : Option Nat} (hm : m.wf = true) (hcap : stackCapLegal cap = true) :
    Inv (State.launch m k cap) where
  memory := hm
  pcRange := by
    rw [launch_pc]
    decide
  returnRange := by simp
  stackCap := by
    rintro c ⟨⟩
    exact of_decide_eq_true hcap
  faultRecord := nofun

/-! ## The obligations -/

/-- Settles O10: the four outcomes of a STEP. -/
theorem stepKeepsRunInvariant : Obligations.StepKeepsRunInvariant := fun _ _ => inv_step

/-- Settles O9: the launch state over the empty memory, with the unbounded stack. -/
theorem resetMeetsRunInvariant : Obligations.ResetMeetsRunInvariant := inv_launch wf_nil rfl

end Sys2Proof.Proofs
end

section
/-! PROOFS. The host events: LOAD_ROM, RESET, POWER_ON, and the boot order they follow (70_reset_and_hazards.md); what a
halted core does with them (60_exceptions.md R132); and the invariant along any sequence of events. -/

namespace Sys2Proof.Proofs

open Sys2Proof.Machine Sys2Proof.Safety Sys2Proof.Laws

/-! ## LOAD_ROM (R163, R164) -/

theorem loadRom_of_fault {s : State} (h : s.fault ≠ none) (bytes : List Byte) : s.loadRom bytes = (s, false) :=
  if_pos (halted_of_fault h)

theorem loadRom_of_fits {s : State} (h : s.fault = none) {bytes : List Byte} (hlength : bytes.length ≤ 0xE00) :
    s.loadRom bytes = ({ s with mem := s.mem.writeBytes 0x200 bytes }, true) := by
  have fits : romFits bytes = true := decide_eq_true hlength
  rw [State.loadRom, if_neg (not_halted_of_no_fault h), if_pos fits]
  rfl

theorem loadRom_of_long {s : State} (h : s.fault = none) {bytes : List Byte} (hlength : 0xE00 < bytes.length) :
    s.loadRom bytes = (s, false) := by
  have long : ¬romFits bytes = true := mt of_decide_eq_true (Nat.not_le_of_lt hlength)
  rw [State.loadRom, if_neg (not_halted_of_no_fault h), if_neg long]

/-- A ROM of at most 0xE00 bytes ends at the end of memory at most. -/
theorem rom_fits_memory {bytes : List Byte} (h : bytes.length ≤ 0xE00) : 0x200 + bytes.length ≤ Config.memSize := by
  rw [Config.memSize]
  omega

/-! ## POWER_ON (R160) -/

theorem length_powerOnImage_bytes (img : PowerOnImage) : img.bytes.length = 0x1000 := by
  rw [PowerOnImage.bytes, List.length_append, Vector.length_toList, Vector.length_toList]

theorem powerOnImage_fits_memory (img : PowerOnImage) : 0 + img.bytes.length ≤ Config.memSize :=
  (Nat.zero_add _).trans_le (length_powerOnImage_bytes img).le

theorem wf_powerOn (img : PowerOnImage) : (Memory.powerOn img).wf = true :=
  wf_writeBytes wf_nil _ 0 (powerOnImage_fits_memory img)

theorem read_powerOn (img : PowerOnImage) {a : Nat} (h : a < img.bytes.length) :
    (Memory.powerOn img).read a = img.bytes[a] := by
  have hread : (Memory.powerOn img).read (0 + a) = img.bytes[a] :=
    read_writeBytes_inside wf_nil (powerOnImage_fits_memory img) h
  rwa [Nat.zero_add] at hread

/-- The first 0x50 bytes of memory after POWER_ON are the font. -/
theorem read_powerOn_font (img : PowerOnImage) {a : Nat} (h : a < 0x50) : (Memory.powerOn img).read a = img.font[a] := by
  have hfont : a < img.font.toList.length := by rwa [Vector.length_toList]
  rw [read_powerOn img (by rw [length_powerOnImage_bytes]; omega)]
  exact (List.getElem_append_left hfont).trans (Vector.getElem_toList ..)

/-- From 0x50 on memory after POWER_ON is the fill. -/
theorem read_powerOn_fill (img : PowerOnImage) {a : Nat} (h : 0x50 ≤ a ∧ a < 0x1000) :
    (Memory.powerOn img).read a = img.fill[a - 0x50] := by
  have hfont : img.font.toList.length ≤ a := img.font.length_toList.trans_le h.1
  rw [read_powerOn img (by rw [length_powerOnImage_bytes]; omega)]
  refine (List.getElem_append_right hfont).trans ?_
  simp

/-- The three events of the boot sequence, with a ROM that fits. -/
theorem run_boot (cap : Option Nat) (img : PowerOnImage) {rom : List Byte} (h : rom.length ≤ 0xE00) :
    Platform.run [.powerOn img, .reset, .loadRom rom] (.off cap) =
      .next (.running (State.launch ((Memory.powerOn img).writeBytes 0x200 rom) 0 cap)) := by
  have hload := loadRom_of_fits (launch_fault (Memory.powerOn img) 0 cap) h
  simp only [Platform.run, Platform.handle, Platform.powerOn, Platform.reset, Platform.loadRom, hload]
  rfl

/-! ## The invariant along any sequence of events -/

theorem inv_resetEvent {s : State} (hs : Inv s) (hcap : stackCapLegal s.stackCap = true) : Inv s.resetEvent :=
  inv_launch hs.memory hcap

/-- TICK writes the two timers at most. -/
theorem tick_eq (s : State) : ∃ dt st, s.tick = { s with dt := dt, st := st } := by
  by_cases h : s.fault = none
  · exact ⟨_, _, tick_of_no_fault h⟩
  · exact ⟨_, _, tick_of_fault h⟩

theorem fault_tick (s : State) : s.tick.fault = s.fault := by
  obtain ⟨_, _, htick⟩ := tick_eq s
  rw [htick]

/-- KEY_SET writes the keypad at most. -/
theorem keySet_eq (s : State) (k : Nibble) (pressed : Bool) : ∃ keys, s.keySet k pressed = { s with keys := keys } := by
  by_cases h : s.fault = none
  · exact ⟨_, keySet_of_no_fault h k pressed⟩
  · exact ⟨_, keySet_of_fault h k pressed⟩

theorem platformInv_tick {s : State} (hs : PlatformInv (.running s)) : PlatformInv (.running s.tick) := by
  obtain ⟨hinv, hcap⟩ := hs
  obtain ⟨_, _, htick⟩ := tick_eq s
  rw [htick]
  exact ⟨inv_congr hinv rfl rfl rfl rfl rfl, hcap⟩

theorem platformInv_keySet {s : State} (hs : PlatformInv (.running s)) (k : Nibble) (pressed : Bool) :
    PlatformInv (.running (s.keySet k pressed)) := by
  obtain ⟨hinv, hcap⟩ := hs
  obtain ⟨_, hkeySet⟩ := keySet_eq s k pressed
  rw [hkeySet]
  exact ⟨inv_congr hinv rfl rfl rfl rfl rfl, hcap⟩

/-- A running core with another canonical memory meets the invariant: it has no record that could stop to fit. -/
theorem inv_with_mem {s : State} (hs : Inv s) (hrun : s.fault = none) {m : Memory} (hm : m.wf = true) :
    Inv { s with mem := m } where
  memory := hm
  pcRange := hs.pcRange
  returnRange := hs.returnRange
  stackCap := hs.stackCap
  faultRecord := fun _ hr => nomatch hrun.symm.trans hr

theorem platformInv_powerOn (img : PowerOnImage) {p : Platform} (hp : PlatformInv p) :
    PlatformInv (p.powerOn img) := by
  cases p with
  | off => exact ⟨wf_powerOn img, hp⟩
  | powered | running =>
    obtain ⟨-, hcap⟩ := hp
    exact ⟨wf_powerOn img, hcap⟩
  | ready =>
    obtain ⟨-, -, hcap⟩ := hp
    exact ⟨wf_powerOn img, hcap⟩

theorem platformInv_reset {p q : Platform} {r : Response} (hp : PlatformInv p) (h : p.reset = .next (q, r)) :
    PlatformInv q := by
  cases p with
  | off => cases h
  | powered =>
    obtain ⟨hm, hcap⟩ := hp
    cases h
    exact ⟨inv_launch hm hcap, rfl, hcap⟩
  | ready =>
    obtain ⟨hs, -, hcap⟩ := hp
    cases h
    exact ⟨inv_resetEvent hs hcap, rfl, hcap⟩
  | running =>
    obtain ⟨hs, hcap⟩ := hp
    cases h
    exact ⟨inv_resetEvent hs hcap, hcap⟩

theorem platformInv_loadRom {bytes : List Byte} {p q : Platform} {r : Response} (hp : PlatformInv p)
    (h : p.loadRom bytes = .next (q, r)) : PlatformInv q := by
  cases p with
  | off | powered => cases h
  | ready s =>
    obtain ⟨hs, hrun, hcap⟩ := hp
    rw [Platform.loadRom] at h
    rcases le_or_gt bytes.length 0xE00 with fits | long
    · rw [loadRom_of_fits hrun fits] at h
      cases h
      exact ⟨inv_with_mem hs hrun (wf_writeBytes hs.memory _ _ (rom_fits_memory fits)), hcap⟩
    · rw [loadRom_of_long hrun long] at h
      cases h
      exact ⟨hs, hrun, hcap⟩
  | running s =>
    rw [Platform.loadRom] at h
    split at h
    · cases h
      exact hp
    · cases h

theorem platformInv_stepCore {s : State} {q : Platform} {r : Response} (hs : PlatformInv (.running s))
    (h : Platform.stepCore s = .next (q, r)) : PlatformInv q := by
  obtain ⟨hinv, hcap⟩ := hs
  obtain ⟨t, hstep⟩ := step_answers s
  rw [Platform.stepCore, hstep] at h
  cases h
  exact ⟨inv_step hinv hstep, stackCap_of_step hstep ▸ hcap⟩

/-- An event of a booted core keeps the invariant when its effect on the running state does. -/
theorem platformInv_whenRunning {f : State → Host.Outcome (Platform × Response) Fault Refusal} {p q : Platform}
    {r : Response} (hp : PlatformInv p) (h : p.whenRunning f = .next (q, r))
    (hf : ∀ s, PlatformInv (.running s) → f s = .next (q, r) → PlatformInv q) : PlatformInv q := by
  cases p with
  | off | powered | ready => cases h
  | running s => exact hf s hp h

theorem platformInv_handle {e : Event} {p q : Platform} {r : Response} (hp : PlatformInv p)
    (h : Platform.handle e p = .next (q, r)) : PlatformInv q := by
  cases e with
  | powerOn img =>
    cases h
    exact platformInv_powerOn img hp
  | reset => exact platformInv_reset hp h
  | loadRom => exact platformInv_loadRom hp h
  | step => exact platformInv_whenRunning hp h fun _ => platformInv_stepCore
  | tick =>
    refine platformInv_whenRunning hp h fun s hs hnext => ?_
    cases hnext
    exact platformInv_tick hs
  | keySet k pressed =>
    refine platformInv_whenRunning hp h fun s hs hnext => ?_
    cases hnext
    exact platformInv_keySet hs k pressed
  | fbSnapshot =>
    refine platformInv_whenRunning hp h fun s hs hnext => ?_
    cases hnext
    exact hs

theorem platformInv_run {es : List Event} {p q : Platform} (hp : PlatformInv p) (h : Platform.run es p = .next q) :
    PlatformInv q := by
  induction es generalizing p with
  | nil =>
    cases h
    exact hp
  | cons e es ih =>
    rw [Platform.run] at h
    cases he : Platform.handle e p with
    | next a =>
      rw [he] at h
      exact ih (platformInv_handle hp he) h
    | fault | refused =>
      rw [he] at h
      cases h

/-! ## The obligations -/

/-- Settles O11: from power off with a legal cap, event by event. -/
theorem everyEventSequenceKeepsInvariant : Obligations.EveryEventSequenceKeepsInvariant :=
  fun cap _ _ hcap hrun => platformInv_run (p := .off cap) hcap hrun

/-- Settles O17: the boot leaves the launch state, over the power-on image with the ROM stored at 0x200. -/
theorem bootReachesLaunchState : Obligations.BootReachesLaunchState := by
  intro cap img rom hlength
  have hm := wf_powerOn img
  have fits := rom_fits_memory hlength
  refine ⟨_, run_boot cap img hlength, launch_V _ _ _, rfl, rfl, rfl, rfl, rfl, launch_key _ _ _, pixel_off, rfl, rfl,
    fun a h => ?font, fun k h => ?rom, fun a h houtside => ?fill⟩
  case font => exact (read_writeBytes_outside hm fits (.inl (by omega))).trans (read_powerOn_font img h)
  case rom => exact read_writeBytes_inside hm fits h
  case fill => exact (read_writeBytes_outside hm fits houtside).trans (read_powerOn_fill img h)

/-- Settles O19: the block store at 0x200, or nothing. -/
theorem loadRomCopiesOrFails : Obligations.LoadRomCopiesOrFails := by
  refine fun s bytes hm hrun => ⟨fun hlength => ?copied, loadRom_of_long hrun⟩
  case copied =>
    have fits := rom_fits_memory hlength
    exact ⟨_, loadRom_of_fits hrun hlength, rfl, keptAllBut_with_mem s _,
      fun k hk => read_writeBytes_outside hm fits hk, fun k hk => read_writeBytes_inside hm fits hk⟩

/-- Settles O21, by induction on the number of TICKs: each takes one off each timer, and the core keeps running. -/
theorem timersReachZeroAndStayThere : Obligations.TimersReachZeroAndStayThere := by
  intro s k
  induction k generalizing s with
  | zero => exact fun _ => ⟨rfl, rfl⟩
  | succ k ih =>
    intro hrun
    obtain ⟨-, ticked⟩ := tickCountsBothTimersDown s
    obtain ⟨hdt, hst, -⟩ := ticked hrun
    obtain ⟨ihdt, ihst⟩ := ih s.tick ((fault_tick s).trans hrun)
    rw [Function.iterate_succ_apply, ihdt, ihst, hdt, hst]
    omega

/-- Settles O14: every event but RESET looks at the fault record first. -/
theorem haltedCoreIgnoresEvents : Obligations.HaltedCoreIgnoresEvents := fun _ h =>
  ⟨step_of_fault h, tick_of_fault h, keySet_of_fault h, loadRom_of_fault h, rfl, rfl⟩

/-- Settles O16: RESET is the launch state over the memory that is there. -/
theorem resetReinitialisesAllButMemory : Obligations.ResetReinitialisesAllButMemory := fun _ =>
  ⟨launch_V _ _ _, rfl, rfl, rfl, rfl, rfl, launch_key _ _ _, pixel_off, rfl, rfl, rfl, rfl⟩

/-- Settles O18, event by event at each stage of the boot order. -/
theorem eventsBeforeBootAreRefused : Obligations.EventsBeforeBootAreRefused := by
  refine ⟨fun cap e hpower => ?off, fun m k cap e hpower hreset => ?powered, fun s e hpower hreset hload => ?ready⟩
  case off =>
    cases e with
    | powerOn img => exact absurd rfl (hpower img)
    | reset | loadRom | step | tick | keySet | fbSnapshot => rfl
  case powered =>
    cases e with
    | powerOn img => exact absurd rfl (hpower img)
    | reset => exact absurd rfl hreset
    | loadRom | step | tick | keySet | fbSnapshot => rfl
  case ready =>
    cases e with
    | powerOn img => exact absurd rfl (hpower img)
    | reset => exact absurd rfl hreset
    | loadRom bytes => exact absurd rfl (hload bytes)
    | step | tick | keySet | fbSnapshot => rfl

end Sys2Proof.Proofs
end
